-- ==== Sys2Proof/Word.lean ====
section
/-! DEFINITION. The word types of the IoctlCodec's ports and of the two encodings. -/

namespace Sys2Proof

/-- `OPW` of 00_scope.md R12: the width of every numeric operand port. -/
abbrev opw : Nat := 32

/-- A numeric operand, as its port carries it: unsigned (00_scope.md R12). -/
abbrev Operand := BitVec opw

/-- A CommandCode (30_encoding.md R60): 32 bits, whatever the widths of its fields. -/
abbrev Code := BitVec 32

/-- The command word `{L, S, OP[3:0]}` (30_encoding.md R66). -/
abbrev CmdWord := BitVec 6

/-- A layout entry `{wbits[15:0], kind[1:0], ord[1:0]}` (30_encoding.md R73). -/
abbrev LayoutEntry := BitVec 20

/-- One byte, the unit in which a word of the opcode table is handed to the decoder. -/
abbrev Byte := BitVec 8

/-- What stands on an input port: a value, or `none` while the host leaves the port undriven or its value is unknown
(70_reset_and_hazards.md R215, R217). -/
abbrev Port (w : Nat) := Option (BitVec w)

end Sys2Proof
end

