-- ==== Sys2Proof/Config.lean ====
section
/-! DEFINITION. What a build of the block fixes (the parameter set), and the free values of its outputs. -/

namespace Sys2Proof

/-- The build parameters: the four field widths and CODEBITS of 00_scope.md R8, the direction code values of R11
(`DIR_RW` is computed from two of them) and `LMAX` of R13. Fixed when the block is built (10_state.md R21). -/
structure Params where
  /-- `NRBITS` -/
  nrBits : Nat
  /-- `TYPEBITS` -/
  typeBits : Nat
  /-- `SIZEBITS` -/
  sizeBits : Nat
  /-- `DIRBITS` -/
  dirBits : Nat
  /-- `CODEBITS` -/
  codeBits : Nat
  /-- `DIR_NONE` -/
  dirNone : Nat
  /-- `DIR_WRITE` -/
  dirWrite : Nat
  /-- `DIR_READ` -/
  dirRead : Nat
  /-- `LMAX` -/
  lmax : Nat
  deriving DecidableEq, Repr

/-! The free values (log 3). While a port that the request reads is undriven, the outputs are 'any value'
(70_reset_and_hazards.md R217): draw number `k` of each output port is its constant below applied to `k`. None has a
body, so nothing can be proved of a value. -/

/-- Free draws of `ok_o`. -/
opaque Config.freeOk : Nat → BitVec 1
/-- Free draws of `err_o`. -/
opaque Config.freeErr : Nat → BitVec 3
/-- Free draws of `rng_o`. -/
opaque Config.freeRng : Nat → BitVec 4
/-- Free draws of `code_o`. -/
opaque Config.freeCode : Nat → BitVec 32
/-- Free draws of `dir_o`; the port has the low `DIRBITS` of it. -/
opaque Config.freeDir : Nat → BitVec 32
/-- Free draws of `size_o`; the port has the low `SIZEBITS` of it. -/
opaque Config.freeSize : Nat → BitVec 32
/-- Free draws of `type_o`; the port has the low `TYPEBITS` of it. -/
opaque Config.freeType : Nat → BitVec 32
/-- Free draws of `nr_o`; the port has the low `NRBITS` of it. -/
opaque Config.freeNr : Nat → BitVec 32
/-- Free draws of `lsize_o`. -/
opaque Config.freeLsize : Nat → BitVec 32

end Sys2Proof
end

