-- ==== Sys2Proof/Syntax.lean ====
section
/-! DEFINITION. The command words as instructions, one constructor for each row of spec/opcode_table.json, and the
named values the encodings use. -/

namespace Sys2Proof

/-- Bit `L` of the command word (30_encoding.md R66, R69): where the size comes from. -/
inductive SizeSource where
  /-- `L = 0`: the literal `size_i`. -/
  | literal
  /-- `L = 1`: the layout descriptor `lay_n`, `lay_e`. -/
  | layout
  deriving DecidableEq, Repr

/-- Bit `S` of the command word (30_encoding.md R66, R70): what an out-of-range field does. -/
inductive RangePolicy where
  /-- `S = 0`: it wraps. -/
  | wrap
  /-- `S = 1`: the request fails with `InvalidFieldRange`. -/
  | strict
  deriving DecidableEq, Repr

/-- The operations (30_encoding.md R67). Operands stand on ports, not in the word (R76); both upper bits of the word
are kept, also where R72 says that they are ignored, so that no bit of an encoding is lost. -/
inductive Instr where
  /-- OP 0, `makeNone` (40_encode.md R105). -/
  | mkn (l : SizeSource) (p : RangePolicy)
  /-- OP 1, `makeWrite` (40_encode.md R106). -/
  | mkw (l : SizeSource) (p : RangePolicy)
  /-- OP 2, `makeRead` (40_encode.md R107). -/
  | mkr (l : SizeSource) (p : RangePolicy)
  /-- OP 3, `makeReadWrite` (40_encode.md R108). -/
  | mkrw (l : SizeSource) (p : RangePolicy)
  /-- OP 4, `encode` (40_encode.md R104). -/
  | enc (l : SizeSource) (p : RangePolicy)
  /-- OP 5, `decode` (42_decode.md R150). -/
  | dec (l : SizeSource) (p : RangePolicy)
  /-- OP 6, the byte length of a layout (41_layout_size.md R135). -/
  | lsize (l : SizeSource) (p : RangePolicy)
  /-- OP 7, one entry of the constant ROM (43_constants.md R160). -/
  | const (l : SizeSource) (p : RangePolicy)
  /-- OP 8 to 15 (30_encoding.md R71): `op` is the whole OP field. -/
  | reserved (l : SizeSource) (p : RangePolicy) (op : BitVec 4)
  deriving DecidableEq, Repr

/-- The four fields of a CommandCode (30_encoding.md R60). -/
inductive Field where
  | nr
  | typ
  | size
  | dir
  deriving DecidableEq, Repr

/-- The Direction of a CommandCode (30_encoding.md R64). -/
inductive Direction where
  | none
  | write
  | read
  | readWrite
  deriving DecidableEq, Repr

/-- The primitive kinds of a layout entry (30_encoding.md R74); the fourth code is reserved and has no name. -/
inductive Kind where
  | unsigned
  | signed
  | raw
  deriving DecidableEq, Repr

/-- The byte orders of a layout entry (30_encoding.md R75); the fourth code is reserved and has no name. -/
inductive ByteOrder where
  | native
  | little
  | big
  deriving DecidableEq, Repr

/-- The names of the constant ROM's entries, in the order of 43_constants.md R161. -/
inductive ConstName where
  | deviceMagic
  | readMode
  | writeMode
  | readLsbFirst
  | writeLsbFirst
  | readBitsPerWord
  | writeBitsPerWord
  | readMaxSpeedHz
  | writeMaxSpeedHz
  | cpha
  | cpol
  | mode0
  | mode1
  | mode2
  | mode3
  deriving DecidableEq, Repr

end Sys2Proof
end

