-- ==== Sys2Proof/Machine/Params.lean ====
section
/-! DEFINITION. What follows from a parameter set: shifts, masks, direction codes, and which sets are legal
(00_scope.md R8 to R11, 30_encoding.md R61). -/

namespace Sys2Proof

/-- The source's parameter set: the defaults of 00_scope.md R8 and R13, with the direction codes of 30_encoding.md
R64. -/
def Params.default : Params where
  nrBits := 8
  typeBits := 8
  sizeBits := 14
  dirBits := 2
  codeBits := 32
  dirNone := 0
  dirWrite := 1
  dirRead := 2
  lmax := 16

/-- `FBITS` of a field (00_scope.md R8). -/
def Params.bits (p : Params) : Field → Nat
  | .nr => p.nrBits
  | .typ => p.typeBits
  | .size => p.sizeBits
  | .dir => p.dirBits

/-- `FSHIFT` of a field: the fields are stacked from bit 0 in the order SequenceNumber, Type, Size, Direction
(00_scope.md R9). -/
def Params.shift (p : Params) : Field → Nat
  | .nr => 0
  | .typ => p.nrBits
  | .size => p.nrBits + p.typeBits
  | .dir => p.nrBits + p.typeBits + p.sizeBits

/-- `FMASK` of a field (30_encoding.md R61). -/
def Params.mask (p : Params) (f : Field) : Nat := 2 ^ p.bits f - 1

/-- The in-place mask of a field (30_encoding.md R61). -/
def Params.inPlaceMask (p : Params) (f : Field) : Nat := p.mask f <<< p.shift f

/-- `DIR_RW = DIR_READ | DIR_WRITE` (00_scope.md R11). -/
def Params.dirRw (p : Params) : Nat := p.dirRead ||| p.dirWrite

/-- The code value of a Direction (00_scope.md R11). -/
def Params.dirCode (p : Params) : Direction → Nat
  | .none => p.dirNone
  | .write => p.dirWrite
  | .read => p.dirRead
  | .readWrite => p.dirRw

/-- The widths of 00_scope.md R10: each field at least its least width, and together exactly CODEBITS = 32 bits. -/
def Params.widthsLegal (p : Params) : Bool :=
  decide (1 ≤ p.nrBits) && decide (1 ≤ p.typeBits) && decide (1 ≤ p.sizeBits) && decide (2 ≤ p.dirBits)
    && decide (p.nrBits + p.typeBits + p.sizeBits + p.dirBits = p.codeBits) && decide (p.codeBits = 32)

/-- The direction codes of 00_scope.md R11: four different values, each below `2^DIRBITS`. -/
def Params.codesLegal (p : Params) : Bool :=
  decide ([p.dirNone, p.dirWrite, p.dirRead, p.dirRw].Nodup)
    && [p.dirNone, p.dirWrite, p.dirRead, p.dirRw].all (fun c => decide (c < 2 ^ p.dirBits))

/-- The four field widths are the source's (00_scope.md R8). -/
def Params.widthsDefault (p : Params) : Bool :=
  decide (p.nrBits = 8) && decide (p.typeBits = 8) && decide (p.sizeBits = 14) && decide (p.dirBits = 2)

/-- The direction codes are those of 30_encoding.md R64. -/
def Params.codesDefault (p : Params) : Bool :=
  decide (p.dirNone = 0) && decide (p.dirWrite = 1) && decide (p.dirRead = 2)

/-- A legal parameter set: R10 and R11 of 00_scope.md, and, with the source's widths, the source's direction codes
(30_encoding.md R64; DEDUCED, log 8). -/
def Params.legal (p : Params) : Bool :=
  p.widthsLegal && p.codesLegal && (!p.widthsDefault || p.codesDefault)

end Sys2Proof
end

