-- ==== Sys2Proof/Machine/Ports.lean ====
section
/-! DEFINITION. The input and output ports of the block, and what stands on them when nothing settles it. -/

namespace Sys2Proof.Machine

/-- The input ports (10_state.md R22). A port is `none` while undriven or unknown (70_reset_and_hazards.md R217). -/
structure InPorts where
  /-- `cmd_i`, the command word -/
  cmdI : Port 6
  /-- `dir_i`, the direction operand of ENC -/
  dirI : Port opw
  /-- `type_i`, the Type operand -/
  typeI : Port opw
  /-- `nr_i`, the SequenceNumber operand -/
  nrI : Port opw
  /-- `size_i`, the literal byte count -/
  sizeI : Port opw
  /-- `lay_n`, the number of valid layout entries -/
  layN : Port 8
  /-- `lay_e[0 .. LMAX-1]`, the layout entries in order -/
  layE : List (Port 20)
  /-- `code_i`, the CommandCode to unpack -/
  codeI : Port 32
  /-- `idx_i`, the index into the constant ROM -/
  idxI : Port opw
  deriving DecidableEq, Repr

/-- The output ports (10_state.md R24). The four field outputs are as wide as the build's fields; they are held in 32
bits with the bits above the field's width zero (log 7). -/
structure OutPorts where
  /-- `ok_o` -/
  okO : BitVec 1
  /-- `err_o` -/
  errO : BitVec 3
  /-- `rng_o` -/
  rngO : BitVec 4
  /-- `code_o` -/
  codeO : BitVec 32
  /-- `dir_o` -/
  dirO : BitVec 32
  /-- `size_o` -/
  sizeO : BitVec 32
  /-- `type_o` -/
  typeO : BitVec 32
  /-- `nr_o` -/
  nrO : BitVec 32
  /-- `lsize_o` -/
  lsizeO : BitVec 32
  deriving DecidableEq, Repr

/-- Every input port undriven (10_state.md R32: 'before the host drives valid inputs'; log 2). -/
def InPorts.undriven (lmax : Nat) : InPorts where
  cmdI := none
  dirI := none
  typeI := none
  nrI := none
  sizeI := none
  layN := none
  layE := List.replicate lmax none
  codeI := none
  idxI := none

/-- Draw number `k` of all outputs, under no law but the width of each port (70_reset_and_hazards.md R217; log 3). -/
def OutPorts.free (p : Params) (k : Nat) : OutPorts where
  okO := Config.freeOk k
  errO := Config.freeErr k
  rngO := Config.freeRng k
  codeO := Config.freeCode k
  dirO := BitVec.ofNat 32 ((Config.freeDir k).toNat % 2 ^ p.dirBits)
  sizeO := BitVec.ofNat 32 ((Config.freeSize k).toNat % 2 ^ p.sizeBits)
  typeO := BitVec.ofNat 32 ((Config.freeType k).toNat % 2 ^ p.typeBits)
  nrO := BitVec.ofNat 32 ((Config.freeNr k).toNat % 2 ^ p.nrBits)
  lsizeO := Config.freeLsize k

end Sys2Proof.Machine
end

