-- ==== Sys2Proof/Machine/State.lean ====
section
/-! DEFINITION. The state: what stands on the block's ports, the build it is, and the count of free draws. The block
itself keeps nothing between requests (10_state.md R20). -/

namespace Sys2Proof.Machine

/-- The machine at one moment. -/
structure State where
  /-- the build-time constants (10_state.md R21); no step writes them (log 6) -/
  build : Params
  /-- the input ports, which the host drives (10_state.md R22) -/
  inp : InPorts
  /-- the output ports (10_state.md R24) -/
  out : OutPorts
  /-- the MODEL's own: how many free draws of the outputs there have been (log 3) -/
  draws : Nat
  deriving DecidableEq, Repr

/-- The errors a request can raise, with the information each records (60_exceptions.md R180). Codes 5 to 7 have no
constructor: they are never produced. -/
inductive CodecError where
  /-- a strict encode with an operand that does not fit; records the out-of-range mask (60_exceptions.md R181) -/
  | invalidFieldRange (mask : BitVec 4)
  /-- the layout descriptor is invalid (60_exceptions.md R182) -/
  | unsupportedLayout
  /-- a reserved OP value (60_exceptions.md R183) -/
  | illegalOp
  /-- the index names no entry of the constant ROM (60_exceptions.md R184) -/
  | badConstIndex
  deriving DecidableEq, Repr

/-- There is no fault: nothing stops the block, and its errors are responses (60_exceptions.md R187, R190; log 17). -/
inductive Fault where
  deriving DecidableEq, Repr

/-- Why the model gives no next state. -/
inductive Refusal where
  /-- Raised by `exec` for an instruction that has no meaning yet. Safe: nothing can be proved of its result. -/
  | notModelled (mnemonic : String)
  /-- Raised by every instruction and by a step when the build's parameter set is illegal (00_scope.md R10: 'A model
  given an illegal parameter set refuses it'). Safe. -/
  | illegalParameters
  deriving DecidableEq, Repr

/-- Right after power-up (10_state.md R32; the block has no reset input, 70_reset_and_hazards.md R210): the default
build, no input driven, and so any value on the outputs (log 2, 4, 5). -/
def State.reset : State where
  build := Params.default
  inp := InPorts.undriven Params.default.lmax
  out := OutPorts.free Params.default 0
  draws := 1

end Sys2Proof.Machine
end

