-- ==== Sys2Proof/Machine/Flags.lean ====
section
/-! DEFINITION. The status outputs, which are all the flags the block has (10_state.md R29): the out-of-range mask and
the error codes. -/

namespace Sys2Proof.Machine

/-- An operand does not fit a field of the build (40_encode.md R101). -/
def outOfRange (p : Params) (f : Field) (v : Nat) : Bool := decide (2 ^ p.bits f ≤ v)

/-- The out-of-range mask `{dir, size, type, nr}` of the operands of an encode, the direction counting only where
`checkDir` says so (40_encode.md R101). -/
def rangeMask (p : Params) (d t n sz : Nat) (checkDir : Bool) : BitVec 4 :=
  (BitVec.ofBool (checkDir && outOfRange p .dir d) ++ BitVec.ofBool (outOfRange p .size sz)
    ++ BitVec.ofBool (outOfRange p .typ t) ++ BitVec.ofBool (outOfRange p .nr n) : BitVec 4)

/-- The number of an error on `err_o` (60_exceptions.md R180); 0 is success. -/
def CodecError.code : CodecError → BitVec 3
  | .invalidFieldRange _ => 1#3
  | .unsupportedLayout => 2#3
  | .illegalOp => 3#3
  | .badConstIndex => 4#3

/-- What an error shows on `rng_o` (60_exceptions.md R185). -/
def CodecError.rng : CodecError → BitVec 4
  | .invalidFieldRange mask => mask
  | .unsupportedLayout => 0#4
  | .illegalOp => 0#4
  | .badConstIndex => 0#4

end Sys2Proof.Machine
end

