-- ==== Sys2Proof/Machine/Ops.lean ====
section
/-! DEFINITION. The operations every meaning is written over: packing and unpacking a CommandCode, the success and the
error response, and what a step does to the ports. There is no memory and no register file (20_memory.md R40,
10_state.md R28), so there are no operations over them; there is no trap to return from (60_exceptions.md R191). -/

namespace Sys2Proof.Machine

/-- A value reduced to the width of its field and moved to the field's place (40_encode.md R100). -/
def placeField (p : Params) (f : Field) (v : Nat) : Nat := (v % 2 ^ p.bits f) <<< p.shift f

/-- A field of a CommandCode (30_encoding.md R61, 42_decode.md R150). -/
def extractField (p : Params) (f : Field) (c : Nat) : Nat := (c >>> p.shift f) % 2 ^ p.bits f

/-- The CommandCode of four naturals, each wrapping in its own field (40_encode.md R100). -/
def pack (p : Params) (d t n sz : Nat) : Nat :=
  placeField p .dir d ||| placeField p .size sz ||| placeField p .typ t ||| placeField p .nr n

/-- Every output 0: what an operation does not drive stays so (10_state.md R25). -/
def OutPorts.zero : OutPorts where
  okO := 0#1
  errO := 0#3
  rngO := 0#4
  codeO := 0#32
  dirO := 0#32
  sizeO := 0#32
  typeO := 0#32
  nrO := 0#32
  lsizeO := 0#32

/-- The outputs of a success, before an operation drives its own (40_encode.md R102: `ok_o <- 1`, `err_o <- 0`). -/
def OutPorts.success : OutPorts := { OutPorts.zero with okO := 1#1 }

/-- Raising an error, the block's whole exception mechanism: the error response of 60_exceptions.md R185. No state is
saved and control goes nowhere (R190). -/
def raiseError (e : CodecError) : OutPorts :=
  { OutPorts.zero with errO := e.code, rngO := e.rng }

/-- The end of every encode operation, applying the range policy (40_encode.md R102). -/
def finish (p : Params) (policy : RangePolicy) (d t n sz : Nat) (checkDir : Bool) : OutPorts :=
  let r := rangeMask p d t n sz checkDir
  if policy = .strict ∧ r ≠ 0#4 then raiseError (.invalidFieldRange r)
  else { OutPorts.success with rngO := r, codeO := BitVec.ofNat 32 (pack p d t n sz) }

/-- `finish` after the size is resolved: a failure to resolve it comes before any range check (40_encode.md R103,
60_exceptions.md R186). -/
def finishSized (p : Params) (policy : RangePolicy) (d t n : Nat) (size : Except CodecError Nat) (checkDir : Bool) :
    OutPorts :=
  match size with
  | .error e => raiseError e
  | .ok sz => finish p policy d t n sz checkDir

/-- The outputs of a step are drawn freely: a port that the request reads is undriven (70_reset_and_hazards.md R217;
log 3). -/
def State.drawFree (s : State) : State :=
  { s with out := OutPorts.free s.build s.draws, draws := s.draws + 1 }

/-- The outputs of a step show a response (10_state.md R25, R26). -/
def State.showResponse (s : State) (r : OutPorts) : State := { s with out := r }

/-- One evaluation of the block: the response if every port read is driven, a free draw if one is not; an illegal build
is refused (00_scope.md R10; log 9). -/
def State.answer (s : State) (r : Option OutPorts) : Host.Outcome State Fault Refusal :=
  if s.build.legal then
    match r with
    | some out => .next (s.showResponse out)
    | none => .next s.drawFree
  else .refused .illegalParameters

/-- The host's part: it presents a request on the input ports (00_scope.md R18, 10_state.md R27). -/
def State.present (s : State) (inp : InPorts) : State := { s with inp := inp }

end Sys2Proof.Machine
end

