-- ==== Sys2Proof/Machine/Operands.lean ====
section
/-! DEFINITION. The operand forms: layout entries, the size of a layout, and the two forms of a size
(30_encoding.md R69, R73 to R76; 41_layout_size.md R130 to R134). A read of an undriven port is `none`. -/

namespace Sys2Proof

/-- `wbits`, bits 19:4 of a layout entry (30_encoding.md R73). -/
def entryWbits (e : LayoutEntry) : BitVec 16 := e.extractLsb' 4 16

/-- The `kind` of a layout entry, bits 3:2; none for the reserved code 3 (30_encoding.md R74). -/
def entryKind (e : LayoutEntry) : Option Kind :=
  match (e.extractLsb' 2 2).toNat with
  | 0 => some .unsigned
  | 1 => some .signed
  | 2 => some .raw
  | _ => none

/-- The byte order of a layout entry, bits 1:0; none for the reserved code 3 (30_encoding.md R75). -/
def entryOrd (e : LayoutEntry) : Option ByteOrder :=
  match (e.extractLsb' 0 2).toNat with
  | 0 => some .native
  | 1 => some .little
  | 2 => some .big
  | _ => none

/-- An entry that makes no descriptor invalid: a whole number of bytes, no reserved kind, no reserved byte order
(41_layout_size.md R132, conditions 2 to 4). -/
def entryValid (e : LayoutEntry) : Bool :=
  decide ((entryWbits e).toNat % 8 = 0) && (entryKind e).isSome && (entryOrd e).isSome

/-- The bytes of an entry: its width alone counts, in every kind and byte order (41_layout_size.md R133, R134). -/
def entryBytes (e : LayoutEntry) : Nat := (entryWbits e).toNat / 8

/-- The packed length of entries, with no padding and no alignment (41_layout_size.md R133, 20_memory.md R43). -/
def sumBytes : List LayoutEntry → Nat
  | [] => 0
  | e :: es => entryBytes e + sumBytes es

namespace Machine

/-- A software caller's integer on an operand port: its low OPW bits, two's complement for a negative one (00_scope.md
R12). -/
def hostOperand (z : Int) : Operand := BitVec.ofInt opw z

/-- A software caller drives the five numeric operand ports with the integers of its call (00_scope.md R12). -/
def InPorts.withIntegers (inp : InPorts) (dir typ nr size idx : Int) : InPorts :=
  { inp with
    dirI := some (hostOperand dir), typeI := some (hostOperand typ), nrI := some (hostOperand nr),
    sizeI := some (hostOperand size), idxI := some (hostOperand idx) }

/-- The byte length of the descriptor of `n` entries, `es` being its entries (those the ports can hold); every way of
being invalid is `UnsupportedLayout` (41_layout_size.md R132, R133). -/
def layoutBytes (p : Params) (n : Nat) (es : List LayoutEntry) : Except CodecError Nat :=
  if n ≤ p.lmax ∧ es.all entryValid then .ok (sumBytes es) else .error .unsupportedLayout

/-- The first `k` layout entries, if the host drives them all; an entry the list does not hold counts as undriven
(log 10). -/
def readEntries : Nat → List (Port 20) → Option (List LayoutEntry)
  | 0, _ => some []
  | _ + 1, [] => none
  | _ + 1, none :: _ => none
  | k + 1, some e :: ports =>
    match readEntries k ports with
    | none => none
    | some es => some (e :: es)

/-- The descriptor on `lay_n` and `lay_e`, resolved: the entries `j < lay_n` are read, of those the ports hold
(10_state.md R22, R23; log 11), and no others. -/
def readLayout (p : Params) (inp : InPorts) : Option (Except CodecError Nat) :=
  match inp.layN with
  | none => none
  | some n =>
    match readEntries (min n.toNat p.lmax) inp.layE with
    | none => none
    | some es => some (layoutBytes p n.toNat es)

/-- `sizeOperand()` of 40_encode.md R103: the literal, taken as it stands (41_layout_size.md R131), or the byte length
of the layout. -/
def sizeOperand (p : Params) (l : SizeSource) (inp : InPorts) : Option (Except CodecError Nat) :=
  match l with
  | .literal =>
    match inp.sizeI with
    | none => none
    | some z => some (.ok z.toNat)
  | .layout => readLayout p inp

/-- The operands `type_i`, `nr_i` and the size, all read (30_encoding.md R76), handed on as naturals. -/
def withSized (p : Params) (l : SizeSource) (inp : InPorts) (f : Nat → Nat → Except CodecError Nat → OutPorts) :
    Option OutPorts :=
  match inp.typeI, inp.nrI, sizeOperand p l inp with
  | some t, some n, some sz => some (f t.toNat n.toNat sz)
  | _, _, _ => none

end Machine

end Sys2Proof
end

