-- ==== Sys2Proof/Machine/Constants.lean ====
section
/-! DEFINITION. The constant ROM and CONST (43_constants.md), and the reserved operations (30_encoding.md R71). -/

namespace Sys2Proof

/-- `DeviceMagic`, the byte value of 'k' (43_constants.md R162). -/
def deviceMagic : Nat := 0x6B

/-- The clock phase flag (43_constants.md R165). -/
def cphaFlag : Nat := 0x01

/-- The clock polarity flag (43_constants.md R165). -/
def cpolFlag : Nat := 0x02

namespace Machine

/-- `MKR DeviceMagic, n, sz` in its wrapping, literal form: how the `READ_` constants are defined (43_constants.md
R161, R163). -/
def romRead (p : Params) (n sz : Nat) : Nat := pack p (p.dirCode .read) deviceMagic n sz

/-- `MKW DeviceMagic, n, sz` in its wrapping, literal form: how the `WRITE_` constants are defined (43_constants.md
R161, R163). -/
def romWrite (p : Params) (n sz : Nat) : Nat := pack p (p.dirCode .write) deviceMagic n sz

/-- The value of a constant under a build, each CommandCode computed by its operation and none stored
(43_constants.md R161, R164, R165). -/
def constValue (p : Params) : ConstName → Nat
  | .deviceMagic => deviceMagic
  | .readMode => romRead p 1 1
  | .writeMode => romWrite p 1 1
  | .readLsbFirst => romRead p 2 1
  | .writeLsbFirst => romWrite p 2 1
  | .readBitsPerWord => romRead p 3 1
  | .writeBitsPerWord => romWrite p 3 1
  | .readMaxSpeedHz => romRead p 4 4
  | .writeMaxSpeedHz => romWrite p 4 4
  | .cpha => cphaFlag
  | .cpol => cpolFlag
  | .mode0 => 0
  | .mode1 => cphaFlag
  | .mode2 => cpolFlag
  | .mode3 => cpolFlag ||| cphaFlag

/-- The entries of the constant ROM in the order of 43_constants.md R161. -/
def romNames : List ConstName :=
  [.deviceMagic, .readMode, .writeMode, .readLsbFirst, .writeLsbFirst, .readBitsPerWord, .writeBitsPerWord,
    .readMaxSpeedHz, .writeMaxSpeedHz, .cpha, .cpol, .mode0, .mode1, .mode2, .mode3]

/-- CONST (43_constants.md R160); an index of 15 or more names no entry (60_exceptions.md R184); `L` and `S` are
ignored. -/
def respondConst (p : Params) (_l : SizeSource) (_policy : RangePolicy) (inp : InPorts) : Option OutPorts :=
  match inp.idxI with
  | none => none
  | some i =>
    match romNames[i.toNat]? with
    | none => some (raiseError .badConstIndex)
    | some name => some { OutPorts.success with codeO := BitVec.ofNat 32 (constValue p name) }

/-- A reserved OP (30_encoding.md R71, 60_exceptions.md R183): `IllegalOp`, whatever `L`, `S`, the OP value and the
operands hold; no operand is read (60_exceptions.md R186). -/
def respondReserved (_p : Params) (_l : SizeSource) (_policy : RangePolicy) (_op : BitVec 4) (_inp : InPorts) :
    Option OutPorts :=
  some (raiseError .illegalOp)

/-- The meaning of CONST. -/
def execConst (l : SizeSource) (policy : RangePolicy) (s : State) : Host.Outcome State Fault Refusal :=
  s.answer (respondConst s.build l policy s.inp)

/-- The meaning of a reserved OP. -/
def execReserved (l : SizeSource) (policy : RangePolicy) (op : BitVec 4) (s : State) :
    Host.Outcome State Fault Refusal :=
  s.answer (respondReserved s.build l policy op s.inp)

end Machine

end Sys2Proof
end

