-- ==== Sys2Proof/Machine/Encode.lean ====
section
/-! DEFINITION. The encode family: MKN, MKW, MKR, MKRW, ENC (40_encode.md). For each operation, the response to the
input ports (none where a port it reads is undriven) and the meaning of the instruction. -/

namespace Sys2Proof.Machine

/-- MKN (40_encode.md R105): `L` and the size ports are ignored (30_encoding.md R72). -/
def respondMkn (p : Params) (_l : SizeSource) (policy : RangePolicy) (inp : InPorts) : Option OutPorts :=
  match inp.typeI, inp.nrI with
  | some t, some n => some (finish p policy (p.dirCode .none) t.toNat n.toNat 0 false)
  | _, _ => none

/-- MKW (40_encode.md R106). -/
def respondMkw (p : Params) (l : SizeSource) (policy : RangePolicy) (inp : InPorts) : Option OutPorts :=
  withSized p l inp (fun t n sz => finishSized p policy (p.dirCode .write) t n sz false)

/-- MKR (40_encode.md R107). -/
def respondMkr (p : Params) (l : SizeSource) (policy : RangePolicy) (inp : InPorts) : Option OutPorts :=
  withSized p l inp (fun t n sz => finishSized p policy (p.dirCode .read) t n sz false)

/-- MKRW (40_encode.md R108). -/
def respondMkrw (p : Params) (l : SizeSource) (policy : RangePolicy) (inp : InPorts) : Option OutPorts :=
  withSized p l inp (fun t n sz => finishSized p policy (p.dirCode .readWrite) t n sz false)

/-- ENC (40_encode.md R104): the direction is an operand, and it is range-checked with the others. -/
def respondEnc (p : Params) (l : SizeSource) (policy : RangePolicy) (inp : InPorts) : Option OutPorts :=
  match inp.dirI with
  | none => none
  | some d => withSized p l inp (fun t n sz => finishSized p policy d.toNat t n sz true)

/-- The meaning of MKN. -/
def execMkn (l : SizeSource) (policy : RangePolicy) (s : State) : Host.Outcome State Fault Refusal :=
  s.answer (respondMkn s.build l policy s.inp)

/-- The meaning of MKW. -/
def execMkw (l : SizeSource) (policy : RangePolicy) (s : State) : Host.Outcome State Fault Refusal :=
  s.answer (respondMkw s.build l policy s.inp)

/-- The meaning of MKR. -/
def execMkr (l : SizeSource) (policy : RangePolicy) (s : State) : Host.Outcome State Fault Refusal :=
  s.answer (respondMkr s.build l policy s.inp)

/-- The meaning of MKRW. -/
def execMkrw (l : SizeSource) (policy : RangePolicy) (s : State) : Host.Outcome State Fault Refusal :=
  s.answer (respondMkrw s.build l policy s.inp)

/-- The meaning of ENC. -/
def execEnc (l : SizeSource) (policy : RangePolicy) (s : State) : Host.Outcome State Fault Refusal :=
  s.answer (respondEnc s.build l policy s.inp)

end Sys2Proof.Machine
end

