-- ==== Sys2Proof/Machine/Unpack.lean ====
section
/-! DEFINITION. The unpacking family: DEC (42_decode.md) and LSIZE (41_layout_size.md). -/

namespace Sys2Proof.Machine

/-- DEC (42_decode.md R150): the four fields of `code_i`; every code decodes; `L` and `S` are ignored. -/
def respondDec (p : Params) (_l : SizeSource) (_policy : RangePolicy) (inp : InPorts) : Option OutPorts :=
  match inp.codeI with
  | none => none
  | some c => some { OutPorts.success with
      dirO := BitVec.ofNat 32 (extractField p .dir c.toNat)
      sizeO := BitVec.ofNat 32 (extractField p .size c.toNat)
      typeO := BitVec.ofNat 32 (extractField p .typ c.toNat)
      nrO := BitVec.ofNat 32 (extractField p .nr c.toNat) }

/-- LSIZE (41_layout_size.md R135): the byte length of the descriptor, whatever its range; `L` and `S` are ignored. -/
def respondLsize (p : Params) (_l : SizeSource) (_policy : RangePolicy) (inp : InPorts) : Option OutPorts :=
  match readLayout p inp with
  | none => none
  | some (.error e) => some (raiseError e)
  | some (.ok b) => some { OutPorts.success with lsizeO := BitVec.ofNat 32 b }

/-- The meaning of DEC. -/
def execDec (l : SizeSource) (policy : RangePolicy) (s : State) : Host.Outcome State Fault Refusal :=
  s.answer (respondDec s.build l policy s.inp)

/-- The meaning of LSIZE. -/
def execLsize (l : SizeSource) (policy : RangePolicy) (s : State) : Host.Outcome State Fault Refusal :=
  s.answer (respondLsize s.build l policy s.inp)

end Sys2Proof.Machine
end

