-- ==== Sys2Proof/Machine/Dispatch.lean ====
section
/-! DEFINITION. The meaning of every instruction, one arm each. -/

namespace Sys2Proof.Machine

def exec (i : Instr) (s : State) : Host.Outcome State Fault Refusal :=
  match i with
  | .mkn l p => Sys2Proof.Machine.execMkn l p s
  | .mkw l p => Sys2Proof.Machine.execMkw l p s
  | .mkr l p => Sys2Proof.Machine.execMkr l p s
  | .mkrw l p => Sys2Proof.Machine.execMkrw l p s
  | .enc l p => Sys2Proof.Machine.execEnc l p s
  | .dec l p => Sys2Proof.Machine.execDec l p s
  | .lsize l p => Sys2Proof.Machine.execLsize l p s
  | .const l p => Sys2Proof.Machine.execConst l p s
  | .reserved l p op => Sys2Proof.Machine.execReserved l p op s

end Sys2Proof.Machine
end

