-- ==== Sys2Proof/WellFormed.lean ====
section
/-! DEFINITION. Which instruction terms a command word can stand for. -/

namespace Sys2Proof

/-- The only constraint between the fields of an instruction: a reserved OP is one of 0x8 to 0xF (30_encoding.md R71).
Every `L` and `S` is encodable with every OP (R66, R72). -/
def Instr.wellFormed : Instr → Bool
  | .mkn _ _ => true
  | .mkw _ _ => true
  | .mkr _ _ => true
  | .mkrw _ _ => true
  | .enc _ _ => true
  | .dec _ _ => true
  | .lsize _ _ => true
  | .const _ _ => true
  | .reserved _ _ op => decide (8 ≤ op.toNat)

end Sys2Proof
end

