-- ==== Sys2Proof/Decode.lean ====
section
/-! DEFINITION. The decoder of command words, and the encoder beside it (30_encoding.md R66 to R72, R79). -/

namespace Sys2Proof

/-- Bit 5 of a command word (30_encoding.md R66, R69). -/
def decodeL (w : CmdWord) : SizeSource :=
  if w.getLsbD 5 then .layout else .literal

/-- Bit 4 of a command word (30_encoding.md R66, R70). -/
def decodeS (w : CmdWord) : RangePolicy :=
  if w.getLsbD 4 then .strict else .wrap

/-- Bits 3:0 of a command word (30_encoding.md R66). -/
def decodeOp (w : CmdWord) : BitVec 4 := w.extractLsb' 0 4

/-- The operation of a command word (30_encoding.md R67): total, since R71 gives the reserved OP values a meaning. -/
def decode (w : CmdWord) : Instr :=
  match (decodeOp w).toNat with
  | 0 => .mkn (decodeL w) (decodeS w)
  | 1 => .mkw (decodeL w) (decodeS w)
  | 2 => .mkr (decodeL w) (decodeS w)
  | 3 => .mkrw (decodeL w) (decodeS w)
  | 4 => .enc (decodeL w) (decodeS w)
  | 5 => .dec (decodeL w) (decodeS w)
  | 6 => .lsize (decodeL w) (decodeS w)
  | 7 => .const (decodeL w) (decodeS w)
  | _ => .reserved (decodeL w) (decodeS w) (decodeOp w)

/-- Why bytes are no command word (log 12). Safe: bytes are refused, none is read as a neighbour. -/
inductive DecodeRefusal where
  /-- there is no byte -/
  | noBytes
  /-- the byte has a bit above the six of `cmd_i` -/
  | notSixBits (b : Byte)
  deriving DecidableEq, Repr

/-- The first command word of a list of bytes, one byte a word with its bits 7:6 zero, and the bytes after it (log 12:
the block itself takes its command word on the six wires of `cmd_i` and reads no bytes, 10_state.md R27). -/
def decodeBytes : List Byte → Except DecodeRefusal (Instr × List Byte)
  | [] => .error .noBytes
  | b :: rest =>
    if b.toNat < 64 then .ok (decode (b.extractLsb' 0 6), rest) else .error (.notSixBits b)

/-- Bit `L` of the command word to write. -/
def encodeL : SizeSource → BitVec 1
  | .literal => 0#1
  | .layout => 1#1

/-- Bit `S` of the command word to write. -/
def encodeS : RangePolicy → BitVec 1
  | .wrap => 0#1
  | .strict => 1#1

/-- The command word `{L, S, OP}` (30_encoding.md R66). -/
def encodeWord (l : SizeSource) (p : RangePolicy) (op : BitVec 4) : CmdWord :=
  (encodeL l ++ encodeS p ++ op : BitVec 6)

/-- The command word of an instruction (30_encoding.md R66, R67). -/
def encode : Instr → CmdWord
  | .mkn l p => encodeWord l p 0x0#4
  | .mkw l p => encodeWord l p 0x1#4
  | .mkr l p => encodeWord l p 0x2#4
  | .mkrw l p => encodeWord l p 0x3#4
  | .enc l p => encodeWord l p 0x4#4
  | .dec l p => encodeWord l p 0x5#4
  | .lsize l p => encodeWord l p 0x6#4
  | .const l p => encodeWord l p 0x7#4
  | .reserved l p op => encodeWord l p op

/-- The byte that carries an instruction's command word (log 12). -/
def encodeByte (i : Instr) : Byte := (encode i).zeroExtend 8

/-- The low `8 * n` bits of `w` as `n` bytes, the lowest bits first. -/
def bytesOf : Nat → Nat → List Byte
  | 0, _ => []
  | n + 1, w => BitVec.ofNat 8 w :: bytesOf n (w / 256)

/-- The instruction the decoder reads from a word of the opcode table: `nbits` bits, laid out as bytes. -/
def decodeTableWord (nbits w : Nat) : Option Instr :=
  match decodeBytes (bytesOf ((nbits + 7) / 8) (w % 2 ^ nbits)) with
  | .ok (i, _) => some i
  | .error _ => none

end Sys2Proof
end

