-- ==== Sys2Proof/Machine/Respond.lean ====
section
/-! DEFINITION. The block as one function of its input ports (10_state.md R26). -/

namespace Sys2Proof.Machine

/-- The response of an operation to the operand ports; none where a port it reads is undriven. -/
def respondInstr (p : Params) (inp : InPorts) : Instr → Option OutPorts
  | .mkn l policy => respondMkn p l policy inp
  | .mkw l policy => respondMkw p l policy inp
  | .mkr l policy => respondMkr p l policy inp
  | .mkrw l policy => respondMkrw p l policy inp
  | .enc l policy => respondEnc p l policy inp
  | .dec l policy => respondDec p l policy inp
  | .lsize l policy => respondLsize p l policy inp
  | .const l policy => respondConst p l policy inp
  | .reserved l policy op => respondReserved p l policy op inp

/-- `respond : Request -> Response` of 10_state.md R26, on input ports that may be undriven: none is 'any value'
(70_reset_and_hazards.md R217). -/
def respond (p : Params) (inp : InPorts) : Option OutPorts :=
  match inp.cmdI with
  | none => none
  | some w => respondInstr p inp (decode w)

/-- The instruction the host presents on `cmd_i` (10_state.md R27: nothing is fetched); none while the port is
undriven. -/
def State.presented (s : State) : Option Instr :=
  match s.inp.cmdI with
  | none => none
  | some w => some (decode w)

end Sys2Proof.Machine
end

