-- ==== Sys2Proof/Machine/Step.lean ====
section
/-! DEFINITION. One step: one request, evaluated once (00_scope.md R18, 70_reset_and_hazards.md R213). -/

namespace Sys2Proof.Machine

/-- The block evaluates the request that stands on its ports. `cmd_i` is read by every request (10_state.md R22), so
while it is undriven the outputs are any value (70_reset_and_hazards.md R217). -/
def step (s : State) : Host.Outcome State Fault Refusal :=
  match s.presented with
  | some i => exec i s
  | none => s.answer none

/-- The host presents a command word of the opcode table on `cmd_i`, which has six wires; the operand ports are left as
they are (log 13). -/
def State.withFetchWord (s : State) (nbits w : Nat) : State :=
  s.present { s.inp with cmdI := some (BitVec.ofNat 6 (w % 2 ^ nbits)) }

end Sys2Proof.Machine
end

