-- ==== Sys2Proof/Machine/Assembler.lean ====
section
/-! DEFINITION. Assembler lines and the requests they stand for (30_encoding.md R77, R78). The text of a line is read in
AsmText.lean. -/

namespace Sys2Proof

/-- `number` of 30_encoding.md R77. -/
inductive AsmNumber where
  | dec (n : Nat)
  | hex (n : Nat)
  | chr (c : Char)
  deriving DecidableEq, Repr

/-- `dir` of 30_encoding.md R77. -/
inductive AsmDir where
  | num (n : AsmNumber)
  | named (d : Direction)
  deriving DecidableEq, Repr

/-- `index` of 30_encoding.md R77. -/
inductive AsmIndex where
  | num (n : AsmNumber)
  | named (c : ConstName)
  deriving DecidableEq, Repr

/-- `entry` of 30_encoding.md R77: an order that is left out is native. -/
structure AsmEntry where
  kind : Kind
  width : Nat
  order : Option ByteOrder
  deriving DecidableEq, Repr

/-- `size` of 30_encoding.md R77. -/
inductive AsmSize where
  | num (n : AsmNumber)
  | layout (es : List AsmEntry)
  deriving DecidableEq, Repr

/-- A line without its suffix (30_encoding.md R77); ENC may leave its size out (R78). -/
inductive AsmBody where
  | mkn (t n : AsmNumber)
  | mkw (t n : AsmNumber) (sz : AsmSize)
  | mkr (t n : AsmNumber) (sz : AsmSize)
  | mkrw (t n : AsmNumber) (sz : AsmSize)
  | enc (d : AsmDir) (t n : AsmNumber) (sz : Option AsmSize)
  | dec (c : AsmNumber)
  | lsize (es : List AsmEntry)
  | const (i : AsmIndex)
  | reserved (op : Nat)
  deriving DecidableEq, Repr

/-- A line: whether it has the suffix `.S` (30_encoding.md R68), and the rest. -/
structure AsmLine where
  suffixS : Bool
  body : AsmBody
  deriving DecidableEq, Repr

/-- Why the assembler refuses a line. Safe: no request is made. -/
inductive AsmRefusal where
  /-- `.S` on DEC, LSIZE, CONST (30_encoding.md R77) or on a reserved OP, whose form has none (log 28) -/
  | suffixRefused
  /-- more entries than `LMAX` (30_encoding.md R77), or than the count field `lay_n` can say (log 25) -/
  | tooManyEntries
  /-- a width that the 16 bits of `wbits` cannot hold (log 19) -/
  | widthTooLarge
  /-- `reserved` with an OP that is not 0x8 to 0xF (30_encoding.md R77) -/
  | notReservedOp
  deriving DecidableEq, Repr

namespace Machine

/-- The value of a number; a character stands for its byte value (30_encoding.md R77; 'k' is 0x6B by 43_constants.md
R162, the other characters are ASCII by general knowledge, log 18). -/
def asmNumber : AsmNumber → Nat
  | .dec n => n
  | .hex n => n
  | .chr c => c.toNat

/-- A number on an operand port, as any software caller's integer (00_scope.md R12; log 20). -/
def asmOperand (n : AsmNumber) : Operand := hostOperand (asmNumber n)

/-- The direction operand of ENC: a name stands for its code in the build (30_encoding.md R78; log 24). -/
def asmDir (p : Params) : AsmDir → Operand
  | .num n => asmOperand n
  | .named d => BitVec.ofNat 32 (p.dirCode d)

/-- The index of a constant's name (43_constants.md R161). -/
def constIndex : ConstName → Nat
  | .deviceMagic => 0
  | .readMode => 1
  | .writeMode => 2
  | .readLsbFirst => 3
  | .writeLsbFirst => 4
  | .readBitsPerWord => 5
  | .writeBitsPerWord => 6
  | .readMaxSpeedHz => 7
  | .writeMaxSpeedHz => 8
  | .cpha => 9
  | .cpol => 10
  | .mode0 => 11
  | .mode1 => 12
  | .mode2 => 13
  | .mode3 => 14

/-- The index operand of CONST (30_encoding.md R77, R78). -/
def asmIndex : AsmIndex → Operand
  | .num n => asmOperand n
  | .named c => BitVec.ofNat 32 (constIndex c)

/-- The code of a kind (30_encoding.md R74). -/
def kindCode : Kind → BitVec 2
  | .unsigned => 0#2
  | .signed => 1#2
  | .raw => 2#2

/-- The code of a byte order (30_encoding.md R75). -/
def ordCode : ByteOrder → BitVec 2
  | .native => 0#2
  | .little => 1#2
  | .big => 2#2

/-- `lay_e[j] = {width, kind, order}` (30_encoding.md R73, R77). -/
def layoutEntry (width : BitVec 16) (kind : Kind) (order : ByteOrder) : LayoutEntry :=
  (width ++ kindCode kind ++ ordCode order : BitVec 20)

/-- The entries of a layout; a width that has no 16-bit form is refused (log 19). -/
def asmEntries : List AsmEntry → Except AsmRefusal (List LayoutEntry)
  | [] => .ok []
  | e :: es =>
    if e.width < 65536 then
      match asmEntries es with
      | .error r => .error r
      | .ok rest => .ok (layoutEntry (BitVec.ofNat 16 e.width) e.kind (e.order.getD .native) :: rest)
    else .error .widthTooLarge

/-- Every port driven with 0: what the assembler gives the unused ports (30_encoding.md R77). -/
def InPorts.zeros (lmax : Nat) : InPorts where
  cmdI := some 0
  dirI := some 0
  typeI := some 0
  nrI := some 0
  sizeI := some 0
  layN := some 0
  layE := List.replicate lmax (some 0)
  codeI := some 0
  idxI := some 0

/-- A layout on the ports `lay_n` and `lay_e` (30_encoding.md R77). -/
def asmLayout (p : Params) (es : List AsmEntry) (inp : InPorts) : Except AsmRefusal InPorts :=
  if es.length ≤ p.lmax ∧ es.length < 256 then
    match asmEntries es with
    | .error r => .error r
    | .ok xs => .ok { inp with
        layN := some (BitVec.ofNat 8 es.length)
        layE := xs.map some ++ List.replicate (p.lmax - es.length) (some 0) }
  else .error .tooManyEntries

/-- A size on its ports (30_encoding.md R77). -/
def asmSize (p : Params) (sz : AsmSize) (inp : InPorts) : Except AsmRefusal InPorts :=
  match sz with
  | .num n => .ok { inp with sizeI := some (asmOperand n) }
  | .layout es => asmLayout p es inp

/-- `L` of a line's size (30_encoding.md R77). -/
def asmSource : AsmSize → SizeSource
  | .num _ => .literal
  | .layout _ => .layout

/-- `S` of a line (30_encoding.md R77). -/
def asmPolicy (suffixS : Bool) : RangePolicy := if suffixS then .strict else .wrap

/-- The size of an ENC line: 0 where it is left out (30_encoding.md R78). -/
def encSize (sz : Option AsmSize) : AsmSize := sz.getD (.num (.dec 0))

/-- The instruction of a line (30_encoding.md R67, R77): the assembler sets `L = 0` where `L` is ignored. -/
def asmInstr (line : AsmLine) : Instr :=
  match line.body with
  | .mkn _ _ => .mkn .literal (asmPolicy line.suffixS)
  | .mkw _ _ sz => .mkw (asmSource sz) (asmPolicy line.suffixS)
  | .mkr _ _ sz => .mkr (asmSource sz) (asmPolicy line.suffixS)
  | .mkrw _ _ sz => .mkrw (asmSource sz) (asmPolicy line.suffixS)
  | .enc _ _ _ sz => .enc (asmSource (encSize sz)) (asmPolicy line.suffixS)
  | .dec _ => .dec .literal .wrap
  | .lsize _ => .lsize .literal .wrap
  | .const _ => .const .literal .wrap
  | .reserved op => .reserved .literal .wrap (BitVec.ofNat 4 op)

/-- The operand ports of a line, all other ports as `inp` has them (30_encoding.md R76, R77). -/
def asmOperands (p : Params) (body : AsmBody) (inp : InPorts) : Except AsmRefusal InPorts :=
  match body with
  | .mkn t n => .ok { inp with typeI := some (asmOperand t), nrI := some (asmOperand n) }
  | .mkw t n sz => asmSize p sz { inp with typeI := some (asmOperand t), nrI := some (asmOperand n) }
  | .mkr t n sz => asmSize p sz { inp with typeI := some (asmOperand t), nrI := some (asmOperand n) }
  | .mkrw t n sz => asmSize p sz { inp with typeI := some (asmOperand t), nrI := some (asmOperand n) }
  | .enc d t n sz =>
    asmSize p (encSize sz)
      { inp with dirI := some (asmDir p d), typeI := some (asmOperand t), nrI := some (asmOperand n) }
  | .dec c => .ok { inp with codeI := some (asmOperand c) }
  | .lsize es => asmLayout p es inp
  | .const i => .ok { inp with idxI := some (asmIndex i) }
  | .reserved op => if 8 ≤ op ∧ op < 16 then .ok inp else .error .notReservedOp

/-- A line takes the suffix `.S` (30_encoding.md R77; log 28 for `reserved`). -/
def takesSuffix : AsmBody → Bool
  | .mkn _ _ => true
  | .mkw _ _ _ => true
  | .mkr _ _ _ => true
  | .mkrw _ _ _ => true
  | .enc _ _ _ _ => true
  | .dec _ => false
  | .lsize _ => false
  | .const _ => false
  | .reserved _ => false

/-- The request a line stands for: one request a line (30_encoding.md R77). -/
def assemble (p : Params) (line : AsmLine) : Except AsmRefusal InPorts :=
  if line.suffixS && !takesSuffix line.body then .error .suffixRefused
  else asmOperands p line.body { InPorts.zeros p.lmax with cmdI := some (encode (asmInstr line)) }

end Machine

end Sys2Proof
end

