-- ==== Sys2Proof/Machine/AsmText.lean ====
section
/-! DEFINITION. Reading the text of an assembler line by the grammar of 30_encoding.md R77 (log 21, 26 and 27 for what the
grammar leaves open: blanks, letter case, numerals). A text that the grammar does not have is none. -/

namespace Sys2Proof

/-- The tokens of a line. -/
inductive AsmToken where
  /-- letters, digits and underscores in a row -/
  | run (cs : List Char)
  /-- a character literal -/
  | chr (c : Char)
  | comma
  | openBracket
  | closeBracket
  | dot
  | equals
  deriving DecidableEq, Repr

/-- An operand of a line, before its place says what it may be. -/
inductive AsmArg where
  | num (n : AsmNumber)
  | name (cs : List Char)
  | layout (es : List AsmEntry)
  deriving DecidableEq, Repr

namespace Machine

/-- The token of the characters collected so far (in reverse), if there are any, before other tokens. -/
def flushRun (acc : List Char) (ts : List AsmToken) : List AsmToken :=
  match acc with
  | [] => ts
  | c :: cs => .run (c :: cs).reverse :: ts

/-- The tokens of a separating character; none for a character that no line has. -/
def punctuation (c : Char) : Option (List AsmToken) :=
  if c = ' ' ∨ c = '\t' then some []
  else if c = ',' then some [.comma]
  else if c = '[' then some [.openBracket]
  else if c = ']' then some [.closeBracket]
  else if c = '.' then some [.dot]
  else if c = '=' then some [.equals]
  else none

/-- The tokens of a text, `acc` being the run in progress; `;` begins a comment. -/
def lexLine : List Char → List Char → Option (List AsmToken)
  | [], acc => some (flushRun acc [])
  | '\'' :: c :: '\'' :: rest, acc =>
    match lexLine rest [] with
    | none => none
    | some ts => some (flushRun acc (.chr c :: ts))
  | c :: rest, acc =>
    if c.isAlphanum || c = '_' then lexLine rest (c :: acc)
    else if c = ';' then some (flushRun acc [])
    else
      match punctuation c, lexLine rest [] with
      | some p, some ts => some (flushRun acc (p ++ ts))
      | _, _ => none

/-- The value of a decimal digit. -/
def decDigit (c : Char) : Option Nat := if c.isDigit then some (c.toNat - 48) else none

/-- The value of a hexadecimal digit. DESIGN CHOICE (log 26): `a` to `f` are taken beside `A` to `F`, since
30_encoding.md R77 does not say which letters `hex` has. -/
def hexDigit (c : Char) : Option Nat :=
  if c.isDigit then some (c.toNat - 48)
  else if 97 ≤ c.toNat ∧ c.toNat ≤ 102 then some (c.toNat - 87)
  else if 65 ≤ c.toNat ∧ c.toNat ≤ 70 then some (c.toNat - 55)
  else none

/-- The value of digits, `acc` being the value of those before them. -/
def digitsValue (base : Nat) (digit : Char → Option Nat) : List Char → Nat → Option Nat
  | [], acc => some acc
  | c :: cs, acc =>
    match digit c with
    | none => none
    | some d => digitsValue base digit cs (acc * base + d)

/-- A decimal numeral of at least one digit. -/
def decimal : List Char → Option Nat
  | [] => none
  | c :: cs => digitsValue 10 decDigit (c :: cs) 0

/-- A numeric operand (30_encoding.md R77): decimal, or `0x` and hexadecimal digits. -/
def runNumber : List Char → Option AsmNumber
  | '0' :: 'x' :: h :: hs => (digitsValue 16 hexDigit (h :: hs) 0).map .hex
  | cs => (decimal cs).map .dec

/-- The letter of a kind (30_encoding.md R77). -/
def kindLetter (c : Char) : Option Kind :=
  if c = 'u' then some .unsigned else if c = 's' then some .signed else if c = 'r' then some .raw else none

/-- The name of a byte order (30_encoding.md R77). -/
def orderName : List Char → Option ByteOrder
  | ['n', 'e'] => some .native
  | ['l', 'e'] => some .little
  | ['b', 'e'] => some .big
  | _ => none

/-- `kind width` and, after a dot, the order (30_encoding.md R77). -/
def entryOf (run : List Char) (order : Option (List Char)) : Option AsmEntry :=
  match run with
  | [] => none
  | k :: w =>
    match kindLetter k, decimal w, order with
    | some kind, some width, none => some ⟨kind, width, none⟩
    | some kind, some width, some o => (orderName o).map (fun ord => ⟨kind, width, some ord⟩)
    | _, _, _ => none

/-- The entries of a layout up to its closing bracket, at least one, and what follows (30_encoding.md R77). -/
def parseEntries : List AsmToken → Option (List AsmEntry × List AsmToken)
  | .run w :: .closeBracket :: rest => (entryOf w none).map (fun e => ([e], rest))
  | .run w :: .dot :: .run o :: .closeBracket :: rest => (entryOf w (some o)).map (fun e => ([e], rest))
  | .run w :: .comma :: rest =>
    match entryOf w none, parseEntries rest with
    | some e, some (es, after) => some (e :: es, after)
    | _, _ => none
  | .run w :: .dot :: .run o :: .comma :: rest =>
    match entryOf w (some o), parseEntries rest with
    | some e, some (es, after) => some (e :: es, after)
    | _, _ => none
  | _ => none

/-- One operand and what follows it. -/
def parseArg : List AsmToken → Option (AsmArg × List AsmToken)
  | .chr c :: rest => some (.num (.chr c), rest)
  | .run cs :: rest =>
    match runNumber cs with
    | some n => some (.num n, rest)
    | none => some (.name cs, rest)
  | .openBracket :: .closeBracket :: rest => some (.layout [], rest)
  | .openBracket :: rest => (parseEntries rest).map (fun r => (.layout r.1, r.2))
  | _ => none

/-- The operands of a line, separated by commas; `fuel` bounds their number. -/
def parseArgs : Nat → List AsmToken → Option (List AsmArg)
  | 0, _ => none
  | fuel + 1, ts =>
    match parseArg ts with
    | none => none
    | some (a, []) => some [a]
    | some (a, .comma :: rest) => (parseArgs fuel rest).map (fun as => a :: as)
    | some (_, _) => none

/-- An operand in the place of a number. -/
def argNumber : AsmArg → Option AsmNumber
  | .num n => some n
  | .name _ => none
  | .layout _ => none

/-- An operand in the place of a size (30_encoding.md R77). -/
def argSize : AsmArg → Option AsmSize
  | .num n => some (.num n)
  | .name _ => none
  | .layout es => some (.layout es)

/-- The name of a direction (30_encoding.md R77). -/
def directionName : List Char → Option Direction
  | ['N', 'O', 'N', 'E'] => some .none
  | ['W', 'R', 'I', 'T', 'E'] => some .write
  | ['R', 'E', 'A', 'D'] => some .read
  | ['R', 'W'] => some .readWrite
  | _ => none

/-- The name of a constant (43_constants.md R161). -/
def constText : ConstName → List Char
  | .deviceMagic => ['D', 'e', 'v', 'i', 'c', 'e', 'M', 'a', 'g', 'i', 'c']
  | .readMode => ['R', 'E', 'A', 'D', '_', 'M', 'O', 'D', 'E']
  | .writeMode => ['W', 'R', 'I', 'T', 'E', '_', 'M', 'O', 'D', 'E']
  | .readLsbFirst => ['R', 'E', 'A', 'D', '_', 'L', 'S', 'B', '_', 'F', 'I', 'R', 'S', 'T']
  | .writeLsbFirst => ['W', 'R', 'I', 'T', 'E', '_', 'L', 'S', 'B', '_', 'F', 'I', 'R', 'S', 'T']
  | .readBitsPerWord =>
    ['R', 'E', 'A', 'D', '_', 'B', 'I', 'T', 'S', '_', 'P', 'E', 'R', '_', 'W', 'O', 'R', 'D']
  | .writeBitsPerWord =>
    ['W', 'R', 'I', 'T', 'E', '_', 'B', 'I', 'T', 'S', '_', 'P', 'E', 'R', '_', 'W', 'O', 'R', 'D']
  | .readMaxSpeedHz =>
    ['R', 'E', 'A', 'D', '_', 'M', 'A', 'X', '_', 'S', 'P', 'E', 'E', 'D', '_', 'H', 'Z']
  | .writeMaxSpeedHz =>
    ['W', 'R', 'I', 'T', 'E', '_', 'M', 'A', 'X', '_', 'S', 'P', 'E', 'E', 'D', '_', 'H', 'Z']
  | .cpha => ['C', 'P', 'H', 'A']
  | .cpol => ['C', 'P', 'O', 'L']
  | .mode0 => ['M', 'O', 'D', 'E', '_', '0']
  | .mode1 => ['M', 'O', 'D', 'E', '_', '1']
  | .mode2 => ['M', 'O', 'D', 'E', '_', '2']
  | .mode3 => ['M', 'O', 'D', 'E', '_', '3']

/-- The constant a name stands for (43_constants.md R161). -/
def constName (cs : List Char) : Option ConstName := romNames.find? (fun c => constText c = cs)

/-- An operand in the place of a direction (30_encoding.md R77). -/
def argDir : AsmArg → Option AsmDir
  | .num n => some (.num n)
  | .name cs => (directionName cs).map .named
  | .layout _ => none

/-- An operand in the place of an index (30_encoding.md R77). -/
def argIndex : AsmArg → Option AsmIndex
  | .num n => some (.num n)
  | .name cs => (constName cs).map .named
  | .layout _ => none

/-- Three operands type, nr and size, for a constructor that takes them. -/
def sizedBody (make : AsmNumber → AsmNumber → AsmSize → AsmBody) (t n sz : AsmArg) : Option AsmBody :=
  match argNumber t, argNumber n, argSize sz with
  | some t, some n, some sz => some (make t n sz)
  | _, _, _ => none

/-- The body of an ENC line, its size perhaps left out (30_encoding.md R77, R78). -/
def encBody (d t n : AsmArg) (sz : Option AsmArg) : Option AsmBody :=
  match argDir d, argNumber t, argNumber n, sz with
  | some d, some t, some n, none => some (.enc d t n none)
  | some d, some t, some n, some sz => (argSize sz).map (fun sz => .enc d t n (some sz))
  | _, _, _, _ => none

/-- The mnemonic and the operands of a line (30_encoding.md R68, R77). -/
def bodyOf : List Char → List AsmArg → Option AsmBody
  | ['M', 'K', 'N'], [t, n] =>
    match argNumber t, argNumber n with
    | some t, some n => some (.mkn t n)
    | _, _ => none
  | ['M', 'K', 'W'], [t, n, sz] => sizedBody .mkw t n sz
  | ['M', 'K', 'R'], [t, n, sz] => sizedBody .mkr t n sz
  | ['M', 'K', 'R', 'W'], [t, n, sz] => sizedBody .mkrw t n sz
  | ['E', 'N', 'C'], [d, t, n] => encBody d t n none
  | ['E', 'N', 'C'], [d, t, n, sz] => encBody d t n (some sz)
  | ['D', 'E', 'C'], [c] => (argNumber c).map .dec
  | ['L', 'S', 'I', 'Z', 'E'], [.layout es] => some (.lsize es)
  | ['C', 'O', 'N', 'S', 'T'], [i] => (argIndex i).map .const
  | _, _ => none

/-- A line from its tokens (30_encoding.md R77). DESIGN CHOICE (log 27): the OP of a `reserved` line may be written in
decimal as well as in hexadecimal, the only form R77 shows. -/
def parseTokens : List AsmToken → Option AsmLine
  | [.run ['r', 'e', 's', 'e', 'r', 'v', 'e', 'd'], .run ['O', 'P'], .equals, .run cs] =>
    (runNumber cs).map (fun n => ⟨false, .reserved (asmNumber n)⟩)
  | .run m :: .dot :: .run ['S'] :: rest =>
    match parseArgs rest.length rest with
    | none => none
    | some as => (bodyOf m as).map (fun b => ⟨true, b⟩)
  | .run m :: rest =>
    match parseArgs rest.length rest with
    | none => none
    | some as => (bodyOf m as).map (fun b => ⟨false, b⟩)
  | _ => none

/-- The line a text is (30_encoding.md R77). -/
def parseLine (text : List Char) : Option AsmLine :=
  match lexLine text [] with
  | none => none
  | some ts => parseTokens ts

end Machine

end Sys2Proof
end

