-- ==== Sys2Proof/Machine/Serve.lean ====
section
/-! DEFINITION. A host that presents requests one after another (10_state.md R27, 20_memory.md R47). -/

namespace Sys2Proof.Machine

/-- The responses to a list of requests, presented in order: a 'program' and its end state in the sense of 10_state.md
R27. It ends early where the model refuses to answer. -/
def State.serve : List InPorts → State → List OutPorts
  | [], _ => []
  | r :: rs, s =>
    match step (s.present r) with
    | .next t => t.out :: State.serve rs t
    | .fault _ => []
    | .refused _ => []

end Sys2Proof.Machine
end

