-- ==== Sys2Proof/Safety.lean ====
section
/-! DEFINITION. The terms claims use: what a state must satisfy, which ports an operation reads, and what the operands
of a request are, said as properties rather than by the functions that read them. -/

namespace Sys2Proof.Machine

/-- Each field output is within the width of its port (10_state.md R24). -/
def OutPorts.Fits (p : Params) (o : OutPorts) : Prop :=
  o.dirO.toNat < 2 ^ p.dirBits ∧ o.sizeO.toNat < 2 ^ p.sizeBits ∧ o.typeO.toNat < 2 ^ p.typeBits
    ∧ o.nrO.toNat < 2 ^ p.nrBits

/-- What every step keeps: a legal build (00_scope.md R10), one entry port for each of LMAX (00_scope.md R13), and
outputs no wider than their ports (10_state.md R24). -/
structure State.Inv (s : State) : Prop where
  legal : s.build.legal = true
  ports : s.inp.layE.length = s.build.lmax
  fits : s.out.Fits s.build

/-- A step stopped without an answer. -/
def stops (o : Host.Outcome State Fault Refusal) : Prop :=
  match o with
  | .next _ => False
  | .fault _ => True
  | .refused _ => True

/-- The responses the block can give to a driven request (60_exceptions.md R180, R185; 10_state.md R25): a success, with
`err_o` 0, or an error with one of the four codes, every data output 0, and a mask only beside
`InvalidFieldRange`. -/
def OutPorts.Lawful (o : OutPorts) : Prop :=
  (o.okO = 1#1 ∧ o.errO = 0#3) ∨
  (o.okO = 0#1 ∧ (o.errO = 1#3 ∨ o.errO = 2#3 ∨ o.errO = 3#3 ∨ o.errO = 4#3) ∧ (o.errO = 1#3 ↔ o.rngO ≠ 0#4) ∧
    o.codeO = 0#32 ∧ o.dirO = 0#32 ∧ o.sizeO = 0#32 ∧ o.typeO = 0#32 ∧ o.nrO = 0#32 ∧ o.lsizeO = 0#32)

/-- The input ports by name (10_state.md R22). -/
inductive InPort where
  | cmd
  | dir
  | typ
  | nr
  | size
  | layN
  | layE (j : Nat)
  | code
  | idx
  deriving DecidableEq, Repr

/-- The value on a port, as a natural; none while it is undriven. -/
def InPorts.valueAt (inp : InPorts) : InPort → Option Nat
  | .cmd => inp.cmdI.map BitVec.toNat
  | .dir => inp.dirI.map BitVec.toNat
  | .typ => inp.typeI.map BitVec.toNat
  | .nr => inp.nrI.map BitVec.toNat
  | .size => inp.sizeI.map BitVec.toNat
  | .layN => inp.layN.map BitVec.toNat
  | .layE j => (inp.layE[j]?.getD none).map BitVec.toNat
  | .code => inp.codeI.map BitVec.toNat
  | .idx => inp.idxI.map BitVec.toNat

/-- The ports a layout is read from: the count, and the entries below it that the ports hold (10_state.md R22, R23). -/
def readsLayout (p : Params) (inp : InPorts) : InPort → Prop
  | .layN => True
  | .layE j => ∃ n, inp.valueAt .layN = some n ∧ j < n ∧ j < p.lmax
  | _ => False

/-- The ports a size is read from, by `L` (30_encoding.md R76). -/
def readsSize (p : Params) (inp : InPorts) (l : SizeSource) (q : InPort) : Prop :=
  match l with
  | .literal => q = .size
  | .layout => readsLayout p inp q

/-- The ports an operation reads: the table of 30_encoding.md R76, with `cmd_i`, which every request reads (10_state.md
R22). -/
def readsPort (p : Params) (inp : InPorts) (i : Instr) (q : InPort) : Prop :=
  q = .cmd ∨
  match i with
  | .mkn _ _ => q = .typ ∨ q = .nr
  | .mkw l _ => q = .typ ∨ q = .nr ∨ readsSize p inp l q
  | .mkr l _ => q = .typ ∨ q = .nr ∨ readsSize p inp l q
  | .mkrw l _ => q = .typ ∨ q = .nr ∨ readsSize p inp l q
  | .enc l _ => q = .dir ∨ q = .typ ∨ q = .nr ∨ readsSize p inp l q
  | .dec _ _ => q = .code
  | .lsize _ _ => readsLayout p inp q
  | .const _ _ => q = .idx
  | .reserved _ _ _ => False

/-- Every port a presented instruction reads is driven. -/
def State.Driven (s : State) (i : Instr) : Prop :=
  ∀ q, readsPort s.build s.inp i q → s.inp.valueAt q ≠ none

/-- A layout entry is one the block accepts (41_layout_size.md R132): its width is whole bytes and neither its kind nor
its byte order is the reserved code 3. -/
def EntryOk (e : LayoutEntry) : Prop :=
  (e.toNat / 16) % 8 = 0 ∧ (e.toNat / 4) % 4 ≠ 3 ∧ e.toNat % 4 ≠ 3

/-- The host drives the layout `es`: `lay_n` says how many entries it has, and entry port `j` carries entry `j`. -/
def State.LayoutIs (s : State) (es : List LayoutEntry) : Prop :=
  s.inp.layN = some (BitVec.ofNat 8 es.length) ∧ es.length < 256 ∧
    ∀ j, (h : j < es.length) → s.inp.layE[j]? = some (some es[j])

/-- The packed length of a layout in bytes (41_layout_size.md R133): each width in bits, divided by 8. -/
def layoutLength (es : List LayoutEntry) : Nat := (es.map (fun e => e.toNat / 16 / 8)).sum

/-- The size operand of a request resolves to `v` (40_encode.md R103): the literal `size_i`, or the length of a valid
layout of at most `LMAX` entries. -/
def State.SizeIs (s : State) (l : SizeSource) (v : Nat) : Prop :=
  match l with
  | .literal => ∃ z, s.inp.sizeI = some z ∧ v = z.toNat
  | .layout => ∃ es, s.LayoutIs es ∧ es.length ≤ s.build.lmax ∧ (∀ e ∈ es, EntryOk e) ∧ v = layoutLength es

/-- The descriptor on the ports is driven and invalid (41_layout_size.md R132): it has an entry the block does not
accept, or it counts more than `LMAX` entries (all the entry ports being driven). -/
def State.LayoutInvalid (s : State) : Prop :=
  (∃ es, s.LayoutIs es ∧ es.length ≤ s.build.lmax ∧ ∃ e ∈ es, ¬ EntryOk e) ∨
  (∃ n, s.inp.layN = some n ∧ s.build.lmax < n.toNat ∧ ∀ j, j < s.build.lmax → ∃ e, s.inp.layE[j]? = some (some e))

/-- The four operands fit their fields (30_encoding.md R60, 40_encode.md R101). -/
def InRange (p : Params) (d t n v : Nat) : Prop :=
  d < 2 ^ p.dirBits ∧ t < 2 ^ p.typeBits ∧ n < 2 ^ p.nrBits ∧ v < 2 ^ p.sizeBits

/-- The CommandCode of four operands as a sum: each field reduced to its width and weighed by its place
(30_encoding.md R62: 'OR-ing shifted, masked fields is the same as adding them'). -/
def codeSum (p : Params) (d t n v : Nat) : Nat :=
  (d % 2 ^ p.dirBits) * 2 ^ (p.nrBits + p.typeBits + p.sizeBits) + (v % 2 ^ p.sizeBits) * 2 ^ (p.nrBits + p.typeBits)
    + (t % 2 ^ p.typeBits) * 2 ^ p.nrBits + n % 2 ^ p.nrBits

/-- The mask of 40_encode.md R101 as a number: 8 for the direction, 4 for the size, 2 for the type, 1 for the sequence
number, where each does not fit. -/
def maskSum (p : Params) (d t n v : Nat) : Nat :=
  (if d < 2 ^ p.dirBits then 0 else 8) + (if v < 2 ^ p.sizeBits then 0 else 4) + (if t < 2 ^ p.typeBits then 0 else 2)
    + (if n < 2 ^ p.nrBits then 0 else 1)

/-- The response of a successful encode (40_encode.md R102, 10_state.md R25). -/
def encodeSuccess (rng : BitVec 4) (code : Nat) : OutPorts :=
  { okO := 1#1, errO := 0#3, rngO := rng, codeO := BitVec.ofNat 32 code, dirO := 0#32, sizeO := 0#32, typeO := 0#32,
    nrO := 0#32, lsizeO := 0#32 }

/-- The response of an error (60_exceptions.md R185). -/
def errorOut (err : BitVec 3) (rng : BitVec 4) : OutPorts :=
  { okO := 0#1, errO := err, rngO := rng, codeO := 0#32, dirO := 0#32, sizeO := 0#32, typeO := 0#32, nrO := 0#32,
    lsizeO := 0#32 }

/-- The command word `{L, S, OP}` as a number (30_encoding.md R66). -/
def commandWord (l : SizeSource) (policy : RangePolicy) (op : Nat) : Nat :=
  (match l with | .literal => 0 | .layout => 32) + (match policy with | .wrap => 0 | .strict => 16) + op

/-- The same operation under a range policy (30_encoding.md R70). -/
def underPolicy (policy : RangePolicy) : Instr → Instr
  | .mkn l _ => .mkn l policy
  | .mkw l _ => .mkw l policy
  | .mkr l _ => .mkr l policy
  | .mkrw l _ => .mkrw l policy
  | .enc l _ => .enc l policy
  | .dec l _ => .dec l policy
  | .lsize l _ => .lsize l policy
  | .const l _ => .const l policy
  | .reserved l _ op => .reserved l policy op

/-- An encode operation has the operands `d`, `t`, `n`, `v` (40_encode.md R104 to R108): `type_i`, `nr_i`, its own
direction or the operand `dir_i`, and its size, 0 for MKN. -/
def State.EncodeOperands (s : State) (i : Instr) (d t n v : Nat) : Prop :=
  (∃ x, s.inp.typeI = some x ∧ t = x.toNat) ∧ (∃ x, s.inp.nrI = some x ∧ n = x.toNat) ∧
  match i with
  | .mkn _ _ => d = s.build.dirNone ∧ v = 0
  | .mkw l _ => d = s.build.dirWrite ∧ s.SizeIs l v
  | .mkr l _ => d = s.build.dirRead ∧ s.SizeIs l v
  | .mkrw l _ => d = s.build.dirRw ∧ s.SizeIs l v
  | .enc l _ => (∃ x, s.inp.dirI = some x ∧ d = x.toNat) ∧ s.SizeIs l v
  | .dec _ _ => False
  | .lsize _ _ => False
  | .const _ _ => False
  | .reserved _ _ _ => False

/-- The field `f` of a CommandCode as a natural (30_encoding.md R61), by division. -/
def fieldOf (p : Params) (f : Field) (c : Nat) : Nat := c / 2 ^ p.shift f % 2 ^ p.bits f

/-- The widths are those of 00_scope.md R10. -/
def WidthsOk (p : Params) : Prop :=
  1 ≤ p.nrBits ∧ 1 ≤ p.typeBits ∧ 1 ≤ p.sizeBits ∧ 2 ≤ p.dirBits ∧
    p.nrBits + p.typeBits + p.sizeBits + p.dirBits = p.codeBits ∧ p.codeBits = 32

/-- The direction codes meet the constraints of 00_scope.md R11: the four values are distinct and each is below
`2^DIRBITS`, READ_WRITE being READ | WRITE. -/
def CodesOk (p : Params) : Prop :=
  p.dirNone ≠ p.dirWrite ∧ p.dirNone ≠ p.dirRead ∧ p.dirNone ≠ p.dirRead ||| p.dirWrite ∧ p.dirWrite ≠ p.dirRead ∧
    p.dirWrite ≠ p.dirRead ||| p.dirWrite ∧ p.dirRead ≠ p.dirRead ||| p.dirWrite ∧ p.dirNone < 2 ^ p.dirBits ∧
    p.dirWrite < 2 ^ p.dirBits ∧ p.dirRead < 2 ^ p.dirBits ∧ p.dirRead ||| p.dirWrite < 2 ^ p.dirBits

/-- With the source's widths, the direction codes are the source's, those of 30_encoding.md R64. That a set without this
is illegal is the model's reading (log 8). -/
def DefaultCodesOk (p : Params) : Prop :=
  p.nrBits = 8 ∧ p.typeBits = 8 ∧ p.sizeBits = 14 ∧ p.dirBits = 2 →
    p.dirNone = 0 ∧ p.dirWrite = 1 ∧ p.dirRead = 2

/-- The OP of a line's mnemonic (30_encoding.md R67). -/
def lineOp : AsmBody → Nat
  | .mkn _ _ => 0
  | .mkw _ _ _ => 1
  | .mkr _ _ _ => 2
  | .mkrw _ _ _ => 3
  | .enc _ _ _ _ => 4
  | .dec _ => 5
  | .lsize _ => 6
  | .const _ => 7
  | .reserved op => op

/-- The `L` of a line: 1 exactly where MKW, MKR, MKRW or ENC has a layout for its size (30_encoding.md R77). -/
def lineSource : AsmBody → SizeSource
  | .mkw _ _ (.layout _) => .layout
  | .mkr _ _ (.layout _) => .layout
  | .mkrw _ _ (.layout _) => .layout
  | .enc _ _ _ (some (.layout _)) => .layout
  | _ => .literal

/-- The `S` of a line: 1 exactly where it has the suffix (30_encoding.md R77). -/
def linePolicy (suffixS : Bool) : RangePolicy :=
  match suffixS with
  | true => .strict
  | false => .wrap

/-- The request with this command word, these operands, a layout of these entries and zeros after them, and a code and
an index; every port is driven. -/
def portsWith (p : Params) (word : Nat) (d t n z : Operand) (es : List LayoutEntry) (c : Code) (i : Operand) :
    InPorts where
  cmdI := some (BitVec.ofNat 6 word)
  dirI := some d
  typeI := some t
  nrI := some n
  sizeI := some z
  layN := some (BitVec.ofNat 8 es.length)
  layE := es.map some ++ List.replicate (p.lmax - es.length) (some 0)
  codeI := some c
  idxI := some i

/-- The layout entry of an assembler entry as a number: the width from bit 4 up, the kind at bits 3:2, the byte order,
native if it is left out, at bits 1:0 (30_encoding.md R73 to R75, R77). -/
def entryNumber (e : AsmEntry) : Nat :=
  e.width * 16 + (match e.kind with | .unsigned => 0 | .signed => 1 | .raw => 2) * 4 +
    (match e.order with | none => 0 | some .native => 0 | some .little => 1 | some .big => 2)

/-- The assembler can present a layout: no more entries than LMAX (30_encoding.md R77), and, by the model's choice, no
more than `lay_n` counts and no width above 16 bits (log 19, 25). -/
def LayoutFits (p : Params) (es : List AsmEntry) : Prop :=
  es.length ≤ p.lmax ∧ es.length < 256 ∧ ∀ e ∈ es, e.width < 65536

end Sys2Proof.Machine
end

