-- ==== Sys2Proof/Certificates/Slice0/Obligations.lean ====
section
/-! DEFINITION. The statements about the IoctlCodec that the provers prove. The frame of a statement about an
instruction is its conclusion: it names the whole next state, in which the build, the input ports and the count of free
draws are those of the state before, and every output port is given. There is no memory, register or flag besides
(10_state.md R20, 20_memory.md R40). -/

open Sys2Proof Sys2Proof.Machine

/-! ## Decoding and the step -/

/-- A step runs the instruction whose command word the host presents (30_encoding.md R66, R67, R79; 00_scope.md R18):
there is nothing else around it, no fetch and no program counter (10_state.md R27). -/
def Obligations.StepRunsPresentedInstruction : Prop :=
  ∀ (s : State) (w : CmdWord) (i : Instr), s.inp.cmdI = some w → decode w = i → i.wellFormed = true →
    s.presented = some i ∧ step s = exec i s

/-- Decode and encode agree for every well-formed instruction: on the six wires of `cmd_i` (30_encoding.md R66, R67), and
from a byte. That one byte carries one command word, its bits 7:6 zero, is the model's choice (log entry 12). -/
def Obligations.DecodeOfEncode : Prop :=
  ∀ i : Instr, i.wellFormed = true → decode (encode i) = i ∧ decodeBytes [encodeByte i] = .ok (i, [])

/-- Every command word decodes to a well-formed instruction that encodes back to it: no bit is dropped and no word is
left over (30_encoding.md R66, R67, R71, R79). -/
def Obligations.EncodeOfDecode : Prop :=
  ∀ w : CmdWord, (decode w).wellFormed = true ∧ encode (decode w) = w

/-- Words written out from 30_encoding.md R66 and R67 decode to the operation they stand for. -/
def Obligations.DecodedWords : Prop :=
  decode 0b000000#6 = .mkn .literal .wrap ∧ decode 0b100001#6 = .mkw .layout .wrap ∧
    decode 0b010010#6 = .mkr .literal .strict ∧ decode 0b110011#6 = .mkrw .layout .strict ∧
    decode 0b010100#6 = .enc .literal .strict ∧ decode 0b110101#6 = .dec .layout .strict ∧
    decode 0b000110#6 = .lsize .literal .wrap ∧ decode 0b100111#6 = .const .layout .wrap ∧
    decode 0b001000#6 = .reserved .literal .wrap 8#4 ∧ decode 0b111111#6 = .reserved .layout .strict 15#4

/-- A word of the opcode table, presented on `cmd_i`, is what the next step runs; a byte with a bit above the six wires
is refused (the model's choice of bytes, log entries 12 and 13). -/
def Obligations.TableWordRuns : Prop :=
  ∀ (s : State) (w : Nat),
    (w < 64 → decodeTableWord 8 w = some (decode (BitVec.ofNat 6 w)) ∧
      step (s.withFetchWord 8 w) = exec (decode (BitVec.ofNat 6 w)) (s.withFetchWord 8 w)) ∧
    (64 ≤ w → w < 256 → decodeTableWord 8 w = none)

/-! ## The encode family -/

/-- MKN whole (40_encode.md R105): whatever `L`, the size and the layout ports are, it packs DIR_NONE, the Type, the
SequenceNumber and a Size of 0, or under the strict policy raises InvalidFieldRange; its command word is `{L, S, OP}`
with OP = 0. -/
def Obligations.MknPacksNoneWithSizeZero : Prop :=
  ∀ (l : SizeSource) (policy : RangePolicy) (s : State) (t n : Operand), s.build.legal = true →
    s.inp.typeI = some t → s.inp.nrI = some n →
    (policy = .wrap ∨ InRange s.build s.build.dirNone t.toNat n.toNat 0 →
      exec (.mkn l policy) s = .next { s with
        out := encodeSuccess (BitVec.ofNat 4 (maskSum s.build s.build.dirNone t.toNat n.toNat 0))
          (codeSum s.build s.build.dirNone t.toNat n.toNat 0) }) ∧
    (policy = .strict → ¬ InRange s.build s.build.dirNone t.toNat n.toNat 0 →
      exec (.mkn l policy) s = .next { s with
        out := errorOut 1#3 (BitVec.ofNat 4 (maskSum s.build s.build.dirNone t.toNat n.toNat 0)) }) ∧
    (s.inp.cmdI = some (BitVec.ofNat 6 (commandWord l policy 0)) → step s = exec (.mkn l policy) s)

/-- MKW whole (40_encode.md R106): with its size resolved it packs DIR_WRITE, the Type, the SequenceNumber and the
size, or under the strict policy raises InvalidFieldRange; an invalid layout raises UnsupportedLayout under both
policies and whatever the other operands are; its command word is `{L, S, OP}` with OP = 1. -/
def Obligations.MkwPacksWrite : Prop :=
  ∀ (l : SizeSource) (policy : RangePolicy) (s : State) (t n : Operand), s.build.legal = true →
    s.inp.typeI = some t → s.inp.nrI = some n →
    (∀ v, s.SizeIs l v →
      (policy = .wrap ∨ InRange s.build s.build.dirWrite t.toNat n.toNat v →
        exec (.mkw l policy) s = .next { s with
          out := encodeSuccess (BitVec.ofNat 4 (maskSum s.build s.build.dirWrite t.toNat n.toNat v))
            (codeSum s.build s.build.dirWrite t.toNat n.toNat v) }) ∧
      (policy = .strict → ¬ InRange s.build s.build.dirWrite t.toNat n.toNat v →
        exec (.mkw l policy) s = .next { s with
          out := errorOut 1#3 (BitVec.ofNat 4 (maskSum s.build s.build.dirWrite t.toNat n.toNat v)) })) ∧
    (l = .layout → s.LayoutInvalid → exec (.mkw l policy) s = .next { s with out := errorOut 2#3 0#4 }) ∧
    (s.inp.cmdI = some (BitVec.ofNat 6 (commandWord l policy 1)) → step s = exec (.mkw l policy) s)

/-- MKR whole (40_encode.md R107): with its size resolved it packs DIR_READ, the Type, the SequenceNumber and the
size, or under the strict policy raises InvalidFieldRange; an invalid layout raises UnsupportedLayout under both
policies and whatever the other operands are; its command word is `{L, S, OP}` with OP = 2. -/
def Obligations.MkrPacksRead : Prop :=
  ∀ (l : SizeSource) (policy : RangePolicy) (s : State) (t n : Operand), s.build.legal = true →
    s.inp.typeI = some t → s.inp.nrI = some n →
    (∀ v, s.SizeIs l v →
      (policy = .wrap ∨ InRange s.build s.build.dirRead t.toNat n.toNat v →
        exec (.mkr l policy) s = .next { s with
          out := encodeSuccess (BitVec.ofNat 4 (maskSum s.build s.build.dirRead t.toNat n.toNat v))
            (codeSum s.build s.build.dirRead t.toNat n.toNat v) }) ∧
      (policy = .strict → ¬ InRange s.build s.build.dirRead t.toNat n.toNat v →
        exec (.mkr l policy) s = .next { s with
          out := errorOut 1#3 (BitVec.ofNat 4 (maskSum s.build s.build.dirRead t.toNat n.toNat v)) })) ∧
    (l = .layout → s.LayoutInvalid → exec (.mkr l policy) s = .next { s with out := errorOut 2#3 0#4 }) ∧
    (s.inp.cmdI = some (BitVec.ofNat 6 (commandWord l policy 2)) → step s = exec (.mkr l policy) s)

/-- MKRW whole (40_encode.md R108): with its size resolved it packs `DIR_READ | DIR_WRITE`, the Type, the SequenceNumber and the
size, or under the strict policy raises InvalidFieldRange; an invalid layout raises UnsupportedLayout under both
policies and whatever the other operands are; its command word is `{L, S, OP}` with OP = 3. -/
def Obligations.MkrwPacksReadOrWrite : Prop :=
  ∀ (l : SizeSource) (policy : RangePolicy) (s : State) (t n : Operand), s.build.legal = true →
    s.inp.typeI = some t → s.inp.nrI = some n →
    (∀ v, s.SizeIs l v →
      (policy = .wrap ∨ InRange s.build (s.build.dirRead ||| s.build.dirWrite) t.toNat n.toNat v →
        exec (.mkrw l policy) s = .next { s with
          out := encodeSuccess (BitVec.ofNat 4 (maskSum s.build (s.build.dirRead ||| s.build.dirWrite) t.toNat n.toNat v))
            (codeSum s.build (s.build.dirRead ||| s.build.dirWrite) t.toNat n.toNat v) }) ∧
      (policy = .strict → ¬ InRange s.build (s.build.dirRead ||| s.build.dirWrite) t.toNat n.toNat v →
        exec (.mkrw l policy) s = .next { s with
          out := errorOut 1#3 (BitVec.ofNat 4 (maskSum s.build (s.build.dirRead ||| s.build.dirWrite) t.toNat n.toNat v)) })) ∧
    (l = .layout → s.LayoutInvalid → exec (.mkrw l policy) s = .next { s with out := errorOut 2#3 0#4 }) ∧
    (s.inp.cmdI = some (BitVec.ofNat 6 (commandWord l policy 3)) → step s = exec (.mkrw l policy) s)

/-- ENC whole (40_encode.md R104): with its size resolved it packs the direction operand, the Type, the SequenceNumber and the
size, or under the strict policy raises InvalidFieldRange; an invalid layout raises UnsupportedLayout under both
policies and whatever the other operands are; its command word is `{L, S, OP}` with OP = 4. -/
def Obligations.EncPacksItsDirection : Prop :=
  ∀ (l : SizeSource) (policy : RangePolicy) (s : State) (d t n : Operand), s.build.legal = true →
    s.inp.dirI = some d → s.inp.typeI = some t → s.inp.nrI = some n →
    (∀ v, s.SizeIs l v →
      (policy = .wrap ∨ InRange s.build d.toNat t.toNat n.toNat v →
        exec (.enc l policy) s = .next { s with
          out := encodeSuccess (BitVec.ofNat 4 (maskSum s.build d.toNat t.toNat n.toNat v))
            (codeSum s.build d.toNat t.toNat n.toNat v) }) ∧
      (policy = .strict → ¬ InRange s.build d.toNat t.toNat n.toNat v →
        exec (.enc l policy) s = .next { s with
          out := errorOut 1#3 (BitVec.ofNat 4 (maskSum s.build d.toNat t.toNat n.toNat v)) })) ∧
    (l = .layout → s.LayoutInvalid → exec (.enc l policy) s = .next { s with out := errorOut 2#3 0#4 }) ∧
    (s.inp.cmdI = some (BitVec.ofNat 6 (commandWord l policy 4)) → step s = exec (.enc l policy) s)

/-- Under the strict policy an encode succeeds exactly when every operand is in range, and then it does what it does
under the wrap policy; CONST does the same under both (40_encode.md R112). -/
def Obligations.StrictAgreesWithWrap : Prop :=
  (∀ (i : Instr) (s : State) (d t n v : Nat), s.build.legal = true → s.EncodeOperands i d t n v →
    ((∃ u, exec (underPolicy .strict i) s = .next u ∧ u.out.okO = 1#1) ↔ InRange s.build d t n v) ∧
    (InRange s.build d t n v → exec (underPolicy .strict i) s = exec (underPolicy .wrap i) s)) ∧
  ∀ (l : SizeSource) (s : State), exec (.const l .strict) s = exec (.const l .wrap) s

/-- Field independence (40_encode.md R110): two encodes, of any of the five operations, on one build, that both succeed
and whose operands differ in one field alone, give codes whose difference lies within that field's in-place mask. -/
def Obligations.FieldsAreIndependent : Prop :=
  ∀ (s s' a b : State) (i i' : Instr) (d t n v d' t' n' v' : Nat) (f : Field), s.build.legal = true →
    s'.build = s.build → s.EncodeOperands i d t n v → s'.EncodeOperands i' d' t' n' v' →
    (f ≠ .dir → d' = d) → (f ≠ .typ → t' = t) → (f ≠ .nr → n' = n) → (f ≠ .size → v' = v) →
    exec i s = .next a → a.out.okO = 1#1 → exec i' s' = .next b → b.out.okO = 1#1 →
    (a.out.codeO.toNat ^^^ b.out.codeO.toNat) ||| s.build.inPlaceMask f = s.build.inPlaceMask f

/-- With the source's build the direction field of a constructor's result is its direction code, 0 for MKN, 1 for MKW,
2 for MKR, 3 for MKRW, whenever the constructor succeeds (40_encode.md R111). -/
def Obligations.DirectionFieldOfConstructors : Prop :=
  ∀ (l : SizeSource) (policy : RangePolicy) (s : State) (t n : Operand), s.build = Params.default →
    s.inp.typeI = some t → s.inp.nrI = some n →
    (policy = .wrap ∨ (t.toNat < 256 ∧ n.toNat < 256)) →
    (∃ u, exec (.mkn l policy) s = .next u ∧ u.out.okO = 1#1 ∧ (u.out.codeO &&& 0xC0000000#32) >>> 30 = 0#32) ∧
    ∀ v, s.SizeIs l v → (policy = .wrap ∨ v < 16384) →
      (∃ u, exec (.mkw l policy) s = .next u ∧ u.out.okO = 1#1 ∧ (u.out.codeO &&& 0xC0000000#32) >>> 30 = 1#32) ∧
      (∃ u, exec (.mkr l policy) s = .next u ∧ u.out.okO = 1#1 ∧ (u.out.codeO &&& 0xC0000000#32) >>> 30 = 2#32) ∧
      (∃ u, exec (.mkrw l policy) s = .next u ∧ u.out.okO = 1#1 ∧ (u.out.codeO &&& 0xC0000000#32) >>> 30 = 3#32)

/-- In every legal build MKRW gives the OR of what MKR and MKW give for equal operands (40_encode.md R108, 30_encoding.md
R65). -/
def Obligations.MkrwIsMkrOrMkw : Prop :=
  ∀ (l : SizeSource) (s : State) (t n : Operand) (v : Nat), s.build.legal = true →
    s.inp.typeI = some t → s.inp.nrI = some n → s.SizeIs l v →
    ∃ a b c, exec (.mkrw l .wrap) s = .next a ∧ exec (.mkr l .wrap) s = .next b ∧ exec (.mkw l .wrap) s = .next c ∧
      a.out.codeO = b.out.codeO ||| c.out.codeO

/-- MKN and an ENC of DIR_NONE and size 0 give the same CommandCode (40_encode.md R105, 30_encoding.md R78). -/
def Obligations.MknIsEncOfNone : Prop :=
  ∀ (l : SizeSource) (s : State) (d t n : Operand), s.build.legal = true →
    s.inp.dirI = some d → d.toNat = s.build.dirNone → s.inp.typeI = some t → s.inp.nrI = some n →
    s.inp.sizeI = some 0 →
    ∃ a b, exec (.mkn l .wrap) s = .next a ∧ exec (.enc .literal .wrap) s = .next b ∧ a.out = b.out

/-! ## The CommandCode format -/

/-- With the source's build a CommandCode is, from its most significant bit, 2 bits of Direction, 14 of Size, 8 of Type
and 8 of SequenceNumber (30_encoding.md R60): DEC shows each of them, and ENC of the four gives the code. -/
def Obligations.CommandCodeLayout : Prop :=
  ∀ (l : SizeSource) (policy : RangePolicy) (s : State) (dir : BitVec 2) (size : BitVec 14) (typ nr : BitVec 8),
    s.build = Params.default →
    (s.inp.codeI = some (dir ++ size ++ typ ++ nr : BitVec 32) →
      exec (.dec l policy) s = .next { s with
        out := { okO := 1#1, errO := 0#3, rngO := 0#4, codeO := 0#32, dirO := dir.zeroExtend 32,
                 sizeO := size.zeroExtend 32, typeO := typ.zeroExtend 32, nrO := nr.zeroExtend 32,
                 lsizeO := 0#32 } }) ∧
    (s.inp.dirI = some (dir.zeroExtend 32) → s.inp.sizeI = some (size.zeroExtend 32) →
      s.inp.typeI = some (typ.zeroExtend 32) → s.inp.nrI = some (nr.zeroExtend 32) →
      exec (.enc .literal policy) s = .next { s with
        out := { okO := 1#1, errO := 0#3, rngO := 0#4, codeO := (dir ++ size ++ typ ++ nr : BitVec 32),
                 dirO := 0#32, sizeO := 0#32, typeO := 0#32, nrO := 0#32, lsizeO := 0#32 } })

/-- In a legal build the four in-place masks are disjoint and cover all 32 bits, so that OR-ing the shifted, masked
fields is adding them (30_encoding.md R62). -/
def Obligations.FieldMasksPartitionTheCode : Prop :=
  ∀ p : Params, p.legal = true →
    (∀ f g : Field, f ≠ g → p.inPlaceMask f &&& p.inPlaceMask g = 0) ∧
    p.inPlaceMask .nr ||| p.inPlaceMask .typ ||| p.inPlaceMask .size ||| p.inPlaceMask .dir = 0xFFFFFFFF ∧
    ∀ d t n v, pack p d t n v = placeField p .dir d + placeField p .size v + placeField p .typ t + placeField p .nr n

/-- The direction codes of a legal build are four different values of the Direction field (00_scope.md R11), and with
the source's widths they are 0, 1, 2 and 3 (30_encoding.md R64). That a build with the source's widths and other codes
is illegal is the model's reading (log entry 8). -/
def Obligations.DirectionCodes : Prop :=
  ∀ p : Params, p.legal = true →
    (∀ a b : Direction, a ≠ b → p.dirCode a ≠ p.dirCode b) ∧ (∀ a : Direction, p.dirCode a < 2 ^ p.dirBits) ∧
    p.dirCode .readWrite = p.dirCode .read ||| p.dirCode .write ∧
    (p.nrBits = 8 → p.typeBits = 8 → p.sizeBits = 14 → p.dirBits = 2 →
      p.dirCode .none = 0 ∧ p.dirCode .write = 1 ∧ p.dirCode .read = 2 ∧ p.dirCode .readWrite = 3)

/-! ## DEC -/

/-- DEC whole (42_decode.md R150, 30_encoding.md R63): for every code, each field of `code_i` on its port and every other
data output 0, whatever `L` and `S` are; it never fails; its command word is `{L, S, OP}` with OP = 5. -/
def Obligations.DecSplitsEveryCode : Prop :=
  ∀ (l : SizeSource) (policy : RangePolicy) (s : State) (c : Code), s.build.legal = true → s.inp.codeI = some c →
    exec (.dec l policy) s = .next { s with
      out := { okO := 1#1, errO := 0#3, rngO := 0#4, codeO := 0#32,
               dirO := BitVec.ofNat 32 (fieldOf s.build .dir c.toNat),
               sizeO := BitVec.ofNat 32 (fieldOf s.build .size c.toNat),
               typeO := BitVec.ofNat 32 (fieldOf s.build .typ c.toNat),
               nrO := BitVec.ofNat 32 (fieldOf s.build .nr c.toNat), lsizeO := 0#32 } } ∧
    (s.inp.cmdI = some (BitVec.ofNat 6 (commandWord l policy 5)) → step s = exec (.dec l policy) s)

/-- Round trip from fields to fields, in every legal build: DEC of what a wrapping ENC gives shows each operand reduced
to its field, so exactly the operands when they are in range (42_decode.md R151). -/
def Obligations.DecOfEncGivesTheFields : Prop :=
  ∀ (l l' : SizeSource) (policy : RangePolicy) (s : State) (d t n : Operand) (v : Nat), s.build.legal = true →
    s.inp.dirI = some d → s.inp.typeI = some t → s.inp.nrI = some n → s.SizeIs l v →
    ∃ a b, exec (.enc l .wrap) s = .next a ∧
      exec (.dec l' policy) (a.present { a.inp with codeI := some a.out.codeO }) = .next b ∧ b.out.okO = 1#1 ∧
      b.out.dirO.toNat = d.toNat % 2 ^ s.build.dirBits ∧ b.out.sizeO.toNat = v % 2 ^ s.build.sizeBits ∧
      b.out.typeO.toNat = t.toNat % 2 ^ s.build.typeBits ∧ b.out.nrO.toNat = n.toNat % 2 ^ s.build.nrBits

/-- Round trip from code to code, in every legal build: ENC, wrapping or strict, of the fields that DEC shows gives the
code back, with nothing out of range; so DEC is a bijection between codes and in-range field tuples: it tells any two
codes apart, and it shows every in-range tuple for some code (42_decode.md R152). -/
def Obligations.EncOfDecGivesTheCode : Prop :=
  ∀ (l : SizeSource) (policy policy' : RangePolicy) (s : State) (c : Code), s.build.legal = true →
    s.inp.codeI = some c →
    (∃ a b, exec (.dec l policy) s = .next a ∧
      exec (.enc .literal policy') (a.present { a.inp with
        dirI := some a.out.dirO, typeI := some a.out.typeO, nrI := some a.out.nrO, sizeI := some a.out.sizeO }) =
          .next b ∧
      b.out = encodeSuccess 0#4 c.toNat ∧ b.out.codeO = c) ∧
    (∀ c', ∃ a b, exec (.dec l policy) s = .next a ∧
      exec (.dec l policy) (s.present { s.inp with codeI := some c' }) = .next b ∧ (a.out = b.out → c = c')) ∧
    ∀ d t n v, InRange s.build d t n v → ∃ c' b,
      exec (.dec l policy) (s.present { s.inp with codeI := some c' }) = .next b ∧ b.out.dirO.toNat = d ∧
        b.out.sizeO.toNat = v ∧ b.out.typeO.toNat = t ∧ b.out.nrO.toNat = n

/-! ## Layouts -/

/-- LSIZE whole (41_layout_size.md R133, R135): on a valid descriptor its exact byte length, the sum of the widths with
no padding, at most 131056 bytes with LMAX = 16; on an invalid one UnsupportedLayout; whatever `L` and `S` are; its
command word is `{L, S, OP}` with OP = 6. -/
def Obligations.LsizeGivesTheLength : Prop :=
  ∀ (l : SizeSource) (policy : RangePolicy) (s : State), s.build.legal = true →
    (∀ es, s.LayoutIs es → es.length ≤ s.build.lmax → (∀ e ∈ es, EntryOk e) →
      layoutLength es < 2 ^ 32 ∧ (s.build.lmax = 16 → layoutLength es ≤ 131056) ∧
      exec (.lsize l policy) s = .next { s with
        out := { okO := 1#1, errO := 0#3, rngO := 0#4, codeO := 0#32, dirO := 0#32, sizeO := 0#32, typeO := 0#32,
                 nrO := 0#32, lsizeO := BitVec.ofNat 32 (layoutLength es) } }) ∧
    (s.LayoutInvalid → exec (.lsize l policy) s = .next { s with out := errorOut 2#3 0#4 }) ∧
    (s.inp.cmdI = some (BitVec.ofNat 6 (commandWord l policy 6)) → step s = exec (.lsize l policy) s)

/-- Kinds and byte orders never change a length: two valid descriptors of equal widths give equal responses
(41_layout_size.md R134). -/
def Obligations.KindAndOrderDoNotCount : Prop :=
  ∀ (l : SizeSource) (policy : RangePolicy) (s s' : State) (es es' : List LayoutEntry), s.build.legal = true →
    s'.build = s.build → s.LayoutIs es → s'.LayoutIs es' → es.length ≤ s.build.lmax →
    (∀ e ∈ es, EntryOk e) → (∀ e ∈ es', EntryOk e) →
    es.map (fun e => e.toNat / 16) = es'.map (fun e => e.toNat / 16) →
    ∃ t t', exec (.lsize l policy) s = .next t ∧ exec (.lsize l policy) s' = .next t' ∧ t.out.okO = 1#1 ∧
      t.out = t'.out

/-- With the source's build a valid layout longer than 16383 bytes wraps as a size under the wrap policy and is an
InvalidFieldRange with bit 2 of the mask under the strict policy (41_layout_size.md R136). -/
def Obligations.LongLayoutWrapsOrFails : Prop :=
  ∀ (s : State) (d t n : Operand) (b : Nat), s.build = Params.default →
    s.inp.dirI = some d → s.inp.typeI = some t → s.inp.nrI = some n → s.SizeIs .layout b → 16383 < b →
    ∀ op ∈ [Instr.mkw, Instr.mkr, Instr.mkrw, Instr.enc],
      (∃ u, exec (op .layout .wrap) s = .next u ∧ u.out.okO = 1#1 ∧
        u.out.codeO.toNat / 2 ^ 16 % 2 ^ 14 = b % 2 ^ 14) ∧
      (∃ u, exec (op .layout .strict) s = .next u ∧ u.out.okO = 0#1 ∧ u.out.errO = 1#3 ∧
        u.out.rngO.getLsbD 2 = true)

/-! ## CONST and the reserved operations -/

/-- CONST whole (43_constants.md R160): below 15, the entry of the ROM, each of its CommandCodes being what the encode
operation that defines it gives (R161) and each flag its value (R165); from 15 on, BadConstIndex; whatever `L` and `S`
are; its command word is `{L, S, OP}` with OP = 7. -/
def Obligations.ConstReadsTheRom : Prop :=
  ∀ (l : SizeSource) (policy : RangePolicy) (s : State) (i : Operand), s.build.legal = true →
    s.inp.idxI = some i →
    (∀ value,
      ([0x6B, codeSum s.build s.build.dirRead 0x6B 1 1, codeSum s.build s.build.dirWrite 0x6B 1 1,
        codeSum s.build s.build.dirRead 0x6B 2 1, codeSum s.build s.build.dirWrite 0x6B 2 1,
        codeSum s.build s.build.dirRead 0x6B 3 1, codeSum s.build s.build.dirWrite 0x6B 3 1,
        codeSum s.build s.build.dirRead 0x6B 4 4, codeSum s.build s.build.dirWrite 0x6B 4 4,
        0x01, 0x02, 0, 0x01, 0x02, 0x03] : List Nat)[i.toNat]? = some value →
      exec (.const l policy) s = .next { s with out := encodeSuccess 0#4 value }) ∧
    (15 ≤ i.toNat → exec (.const l policy) s = .next { s with out := errorOut 4#3 0#4 }) ∧
    (s.inp.cmdI = some (BitVec.ofNat 6 (commandWord l policy 7)) → step s = exec (.const l policy) s)

/-- With the source's build the constants have the values of the table of 43_constants.md R161. -/
def Obligations.DefaultConstantTable : Prop :=
  ∀ (l : SizeSource) (policy : RangePolicy) (s : State) (i : Operand) (value : BitVec 32),
    s.build = Params.default → s.inp.idxI = some i →
    [0x0000006B#32, 0x80016B01#32, 0x40016B01#32, 0x80016B02#32, 0x40016B02#32, 0x80016B03#32, 0x40016B03#32,
      0x80046B04#32, 0x40046B04#32, 0x00000001#32, 0x00000002#32, 0x00000000#32, 0x00000001#32, 0x00000002#32,
      0x00000003#32][i.toNat]? = some value →
    ∃ t, exec (.const l policy) s = .next t ∧ t.out.okO = 1#1 ∧ t.out.errO = 0#3 ∧ t.out.codeO = value

/-- A request with a reserved OP raises IllegalOp, whatever `L`, `S` and the operand ports hold, driven or not
(60_exceptions.md R183, 30_encoding.md R71): the instruction, and the step that runs it. -/
def Obligations.ReservedOpIsIllegal : Prop :=
  ∀ (l : SizeSource) (policy : RangePolicy) (op : BitVec 4) (s : State), s.build.legal = true →
    exec (.reserved l policy op) s = .next { s with out := errorOut 3#3 0#4 } ∧
    ∀ w : CmdWord, s.inp.cmdI = some w → 8 ≤ w.toNat % 16 → step s = .next { s with out := errorOut 3#3 0#4 }

/-! ## The whole block -/

/-- In a legal build a request whose read ports are all driven gets one lawful response: a success with `err_o` 0, or
one error with one of the four codes, every data output 0, and a mask only beside InvalidFieldRange
(60_exceptions.md R180, R185, R186). -/
def Obligations.DrivenRequestGetsLawfulResponse : Prop :=
  ∀ (s : State) (i : Instr), s.build.legal = true → s.presented = some i → s.Driven i →
    ∃ o, o.Lawful ∧ step s = .next { s with out := o }

/-- In a legal build, while a port that the request reads is undriven, every output is drawn freely: the step goes on
and its outputs are the next draw (70_reset_and_hazards.md R217; that draws are numbered is the model's form of a free
value, log entry 3). -/
def Obligations.UndrivenReadDrawsFreely : Prop :=
  ∀ s : State, s.build.legal = true →
    (s.presented = none ∨ ∃ i, s.presented = some i ∧ ¬ s.Driven i) →
    step s = .next { s with out := OutPorts.free s.build s.draws, draws := s.draws + 1 }

/-- No step ever faults, and none refuses a legal build (60_exceptions.md R187, R190). -/
def Obligations.NoStop : Prop :=
  ∀ s : State, (s.build.legal = true → ¬ stops (step s)) ∧
    (s.build.legal = true → ∀ i : Instr, ¬ stops (exec i s)) ∧ ∀ r, step s ≠ .fault r

/-- A model given widths that break a condition of 00_scope.md R10 refuses them. R10 does not say when: that every step
and every instruction is refused, whatever the inputs are and also for a reserved OP, is the model's choice (log entry
9). -/
def Obligations.IllegalWidthsAreRefused : Prop :=
  ∀ s : State,
    ¬ WidthsOk s.build →
    step s = .refused .illegalParameters ∧ ∀ i : Instr, exec i s = .refused .illegalParameters

/-- A model given direction codes that break a constraint of 00_scope.md R11 (a repeated code, or one of `2^DIRBITS` or
more), or the source's widths with other codes than the source's, refuses them (92_eei_decisions.md D18). That the last
is illegal is the model's reading (log entry 8), and that every step and every instruction is refused is the model's
choice (log entry 9). -/
def Obligations.IllegalDirectionCodesAreRefused : Prop :=
  ∀ s : State, ¬ (CodesOk s.build ∧ DefaultCodesOk s.build) →
    step s = .refused .illegalParameters ∧ ∀ i : Instr, exec i s = .refused .illegalParameters

/-- Which parameter sets are legal: exactly those whose widths meet 00_scope.md R10, whose direction codes meet R11, and
that satisfy `DefaultCodesOk`. The last clause, that a set with the source's widths is legal only with the source's
direction codes, is the model's reading and no rule of the spec (log entry 8). This says nothing of a step: what a step
does with an illegal set is in IllegalWidthsAreRefused and IllegalDirectionCodesAreRefused, and with a legal one in
NoStop. -/
def Obligations.LegalBuildsAreThoseOfTheSpec : Prop :=
  ∀ p : Params, p.legal = true ↔ (WidthsOk p ∧ CodesOk p ∧ DefaultCodesOk p)

/-- The response depends on the ports that 30_encoding.md R76 lists for the operation and on nothing else: not on other
ports, on earlier outputs or on the count of draws (10_state.md R23, R26). -/
def Obligations.OnlyTheReadPortsCount : Prop :=
  ∀ (s s' : State) (i : Instr), s.build.legal = true → s'.build = s.build → s.presented = some i → s.Driven i →
    (∀ q, readsPort s.build s.inp i q → s'.inp.valueAt q = s.inp.valueAt q) →
    ∃ o, step s = .next { s with out := o } ∧ step s' = .next { s' with out := o }

/-- The invariant that every step keeps: a legal build, an entry port for each of LMAX, and no output wider than its
port (10_state.md R21, R24). -/
def Obligations.EveryStepKeepsInv : Prop :=
  ∀ s t : State, s.Inv → step s = .next t → t.Inv

/-- The machine at reset satisfies the invariant. That the outputs fit their ports there rests on the model's form of a
free draw (log entries 3, 5 and 7). -/
def Obligations.ResetSatisfiesInv : Prop := State.reset.Inv

/-- What every step leaves alone: the build-time constants, and with them the constant ROM, and the input ports, which
are the host's (10_state.md R21, R28; 20_memory.md R50). That the constants stand in State is the model's choice (log
entry 6), that they never change is the spec's reading of 'compile-time' (R21), and the count of draws is the model's
own field (log entry 3). -/
def Obligations.StepKeepsBuildAndInputs : Prop :=
  ∀ s t : State, step s = .next t →
    t.build = s.build ∧ t.inp = s.inp ∧ (∀ c, constValue t.build c = constValue s.build c) ∧
      (t.draws = s.draws ∨ (t.draws = s.draws + 1 ∧ t.out = OutPorts.free s.build s.draws))

/-- Repeating a request repeats its response, an error response too (20_memory.md R45, 60_exceptions.md R188). -/
def Obligations.RepeatedRequestRepeatsResponse : Prop :=
  ∀ (s : State) (i : Instr), s.build.legal = true → s.presented = some i → s.Driven i →
    ∃ t, step s = .next t ∧ step t = .next t

/-- Served in any company, a driven request gets the response it gets alone: the responses to a list of requests are
those that each gets from any other state of the same build, one for each request and in their order (20_memory.md
R47, 60_exceptions.md R187). -/
def Obligations.EachRequestIsServedAlone : Prop :=
  ∀ (requests : List InPorts) (s alone : State), s.build.legal = true → alone.build = s.build →
    (∀ r ∈ requests, ∃ i, (s.present r).presented = some i ∧ (s.present r).Driven i) →
    s.serve requests = requests.flatMap (fun r => alone.serve [r]) ∧ (s.serve requests).length = requests.length

/-! ## A caller's integers -/

/-- A software caller's integer reaches each of the five numeric operand ports as its low 32 bits, so modulo `2^32` also
when it is negative, and is taken there as an unsigned number (00_scope.md R12). So a wrapping ENC packs each integer
modulo its field's width, its mask says which of the 32-bit values do not fit, and CONST takes no index that is 15 or
more modulo `2^32`, such as -1. -/
def Obligations.IntegersReachThePortsAsLowBits : Prop :=
  ∀ (l : SizeSource) (policy : RangePolicy) (s : State) (inp : InPorts) (d t n z i : Int), s.build.legal = true →
    (((inp.withIntegers d t n z i).valueAt .dir).map Int.ofNat = some (d % 2 ^ 32) ∧
      ((inp.withIntegers d t n z i).valueAt .typ).map Int.ofNat = some (t % 2 ^ 32) ∧
      ((inp.withIntegers d t n z i).valueAt .nr).map Int.ofNat = some (n % 2 ^ 32) ∧
      ((inp.withIntegers d t n z i).valueAt .size).map Int.ofNat = some (z % 2 ^ 32) ∧
      ((inp.withIntegers d t n z i).valueAt .idx).map Int.ofNat = some (i % 2 ^ 32)) ∧
    (∃ u, exec (.enc .literal .wrap) (s.present (inp.withIntegers d t n z i)) = .next u ∧ u.out.okO = 1#1 ∧
      u.out.rngO = BitVec.ofNat 4 (maskSum s.build (d % 2 ^ 32).toNat (t % 2 ^ 32).toNat (n % 2 ^ 32).toNat
        (z % 2 ^ 32).toNat) ∧
      (fieldOf s.build .dir u.out.codeO.toNat : Int) = d % 2 ^ s.build.dirBits ∧
      (fieldOf s.build .typ u.out.codeO.toNat : Int) = t % 2 ^ s.build.typeBits ∧
      (fieldOf s.build .nr u.out.codeO.toNat : Int) = n % 2 ^ s.build.nrBits ∧
      (fieldOf s.build .size u.out.codeO.toNat : Int) = z % 2 ^ s.build.sizeBits) ∧
    (15 ≤ i % 2 ^ 32 → exec (.const l policy) (s.present (inp.withIntegers d t n z i)) =
      .next { s.present (inp.withIntegers d t n z i) with out := errorOut 4#3 0#4 })

/-! ## The assembler -/

/-- What the assembler makes of a line is one request: the command word with the OP of its mnemonic, `S` from its suffix
and `L` from the form of its size, which decodes to the line's operation, and every other port driven (30_encoding.md
R67, R77), so that from any legal state the step that follows gives a response and no free draw. -/
def Obligations.AssembledLineIsServed : Prop :=
  ∀ (s : State) (line : AsmLine) (inp : InPorts), s.build.legal = true → assemble s.build line = .ok inp →
    inp.cmdI = some (BitVec.ofNat 6 (commandWord (lineSource line.body) (linePolicy line.suffixS) (lineOp line.body))) ∧
    (s.present inp).presented = some (asmInstr line) ∧ inp.layE.length = s.build.lmax ∧
    (∀ q, inp.valueAt q = none → ∃ j, q = .layE j ∧ s.build.lmax ≤ j) ∧
    ∃ o, o.Lawful ∧ step (s.present inp) = .next { s.present inp with out := o }

/-- The lines of the four constructors, port by port (30_encoding.md R77): OP of the mnemonic, `S` from the suffix, `L`
from the form of the size, type and nr each on its own port, the size on `size_i` or on the layout ports, every other
port 0. -/
def Obligations.AssembledConstructorLines : Prop :=
  ∀ (p : Params) (suffixS : Bool) (t n : AsmNumber),
    assemble p ⟨suffixS, .mkn t n⟩ =
      .ok (portsWith p (commandWord .literal (linePolicy suffixS) 0) 0 (asmOperand t) (asmOperand n) 0 [] 0 0) ∧
    ∀ m ∈ [(AsmBody.mkw, 1), (AsmBody.mkr, 2), (AsmBody.mkrw, 3)],
      (∀ z, assemble p ⟨suffixS, m.1 t n (.num z)⟩ =
        .ok (portsWith p (commandWord .literal (linePolicy suffixS) m.2) 0 (asmOperand t) (asmOperand n)
          (asmOperand z) [] 0 0)) ∧
      ∀ es, LayoutFits p es → assemble p ⟨suffixS, m.1 t n (.layout es)⟩ =
        .ok (portsWith p (commandWord .layout (linePolicy suffixS) m.2) 0 (asmOperand t) (asmOperand n) 0
          (es.map (fun e => BitVec.ofNat 20 (entryNumber e))) 0 0)

/-- The lines of ENC, port by port (30_encoding.md R77, R78): as the constructors' with the direction on `dir_i`; a size
that is left out is the literal 0. -/
def Obligations.AssembledEncLines : Prop :=
  ∀ (p : Params) (suffixS : Bool) (d : AsmDir) (t n : AsmNumber),
    assemble p ⟨suffixS, .enc d t n none⟩ =
      .ok (portsWith p (commandWord .literal (linePolicy suffixS) 4) (asmDir p d) (asmOperand t) (asmOperand n) 0 [] 0
        0) ∧
    (∀ z, assemble p ⟨suffixS, .enc d t n (some (.num z))⟩ =
      .ok (portsWith p (commandWord .literal (linePolicy suffixS) 4) (asmDir p d) (asmOperand t) (asmOperand n)
        (asmOperand z) [] 0 0)) ∧
    ∀ es, LayoutFits p es → assemble p ⟨suffixS, .enc d t n (some (.layout es))⟩ =
      .ok (portsWith p (commandWord .layout (linePolicy suffixS) 4) (asmDir p d) (asmOperand t) (asmOperand n) 0
        (es.map (fun e => BitVec.ofNat 20 (entryNumber e))) 0 0)

/-- The lines of DEC, LSIZE, CONST and a reserved OP, port by port (30_encoding.md R77): `L = 0`, `S = 0`, the one
operand on its own port, every other port 0. -/
def Obligations.AssembledUnpackingLines : Prop :=
  ∀ p : Params,
    (∀ c, assemble p ⟨false, .dec c⟩ = .ok (portsWith p 5 0 0 0 0 [] (asmOperand c) 0)) ∧
    (∀ es, LayoutFits p es → assemble p ⟨false, .lsize es⟩ =
      .ok (portsWith p 6 0 0 0 0 (es.map (fun e => BitVec.ofNat 20 (entryNumber e))) 0 0)) ∧
    (∀ i, assemble p ⟨false, .const i⟩ = .ok (portsWith p 7 0 0 0 0 [] 0 (asmIndex i))) ∧
    ∀ op, 8 ≤ op → op < 16 → assemble p ⟨false, .reserved op⟩ = .ok (portsWith p op 0 0 0 0 [] 0 0)

/-- What the assembler refuses (30_encoding.md R77): `.S` on DEC, LSIZE and CONST, an OP that is not 0x8 to 0xF on a
`reserved` line, and a layout of more than LMAX entries wherever a layout may stand. That `.S` on `reserved` is refused
too is the model's reading (log entry 28). -/
def Obligations.AssemblerRefusals : Prop :=
  ∀ p : Params,
    (∀ c, assemble p ⟨true, .dec c⟩ = .error .suffixRefused) ∧
    (∀ es, assemble p ⟨true, .lsize es⟩ = .error .suffixRefused) ∧
    (∀ i, assemble p ⟨true, .const i⟩ = .error .suffixRefused) ∧
    (∀ op, assemble p ⟨true, .reserved op⟩ = .error .suffixRefused) ∧
    (∀ op, (op < 8 ∨ 16 ≤ op) → assemble p ⟨false, .reserved op⟩ = .error .notReservedOp) ∧
    ∀ es : List AsmEntry, p.lmax < es.length →
      assemble p ⟨false, .lsize es⟩ = .error .tooManyEntries ∧
      ∀ (suffixS : Bool) (d : AsmDir) (t n : AsmNumber),
        assemble p ⟨suffixS, .enc d t n (some (.layout es))⟩ = .error .tooManyEntries ∧
        ∀ make ∈ [AsmBody.mkw, AsmBody.mkr, AsmBody.mkrw],
          assemble p ⟨suffixS, make t n (.layout es)⟩ = .error .tooManyEntries

/-- What the operands of a line stand for (30_encoding.md R77, R78): a decimal or hexadecimal number for its low 32 bits,
`'k'` for 0x6B, the direction names for the build's direction codes, which are 0 to 3 with the source's build, and the
names of the constants for 0 to 14 in the order of 43_constants.md R161. That an assembler's number is cut as a
caller's integer is, and that a name stands for the build's code, are the model's readings (log entries 20 and 24). -/
def Obligations.AssemblerOperandValues : Prop :=
  (∀ k : Nat, asmOperand (.dec k) = BitVec.ofNat 32 k ∧ asmOperand (.hex k) = BitVec.ofNat 32 k) ∧
  asmOperand (.chr 'k') = 0x6B#32 ∧
  (∀ (p : Params) (a : AsmNumber), asmDir p (.num a) = asmOperand a ∧ asmIndex (.num a) = asmOperand a ∧
    asmDir p (.named .none) = BitVec.ofNat 32 p.dirNone ∧ asmDir p (.named .write) = BitVec.ofNat 32 p.dirWrite ∧
    asmDir p (.named .read) = BitVec.ofNat 32 p.dirRead ∧
    asmDir p (.named .readWrite) = BitVec.ofNat 32 (p.dirRead ||| p.dirWrite)) ∧
  [Direction.none, .write, .read, .readWrite].map (fun d => asmDir Params.default (.named d)) = [0, 1, 2, 3] ∧
  [ConstName.deviceMagic, .readMode, .writeMode, .readLsbFirst, .writeLsbFirst, .readBitsPerWord, .writeBitsPerWord,
    .readMaxSpeedHz, .writeMaxSpeedHz, .cpha, .cpol, .mode0, .mode1, .mode2, .mode3].map
      (fun c => asmIndex (.named c)) = [0, 1, 2, 3, 4, 5, 6, 7, 8, 9, 10, 11, 12, 13, 14]

/-- An assembled LSIZE line shows the sum of its entries' whole-byte widths, whatever their kinds and orders
(30_encoding.md R77, 41_layout_size.md R133). -/
def Obligations.AssembledLsizeAddsItsWidths : Prop :=
  ∀ (s : State) (es : List AsmEntry), s.build.legal = true → es.length ≤ s.build.lmax → es.length < 256 →
    (∀ e ∈ es, e.width < 65536 ∧ e.width % 8 = 0) →
    ∃ inp t, assemble s.build ⟨false, .lsize es⟩ = .ok inp ∧ step (s.present inp) = .next t ∧ t.out.okO = 1#1 ∧
      t.out.lsizeO.toNat = (es.map (fun e => e.width / 8)).sum
end

