-- ==== Sys2Proof/Laws/Operands.lean ====
section
/-! SUPPORT. What reading a layout does, once and for all: which entries are read, when one is missing, and what the
length of the entries is. -/

namespace Sys2Proof.Machine

/-- Reading `k` entries answers `es` exactly when the first `k` ports are driven with `es`. -/
theorem readEntries_eq_some_iff (k : Nat) (ports : List (Port 20)) (es : List LayoutEntry) :
    readEntries k ports = some es ↔
      es.length = k ∧ ∀ j, (h : j < es.length) → ports[j]? = some (some es[j]) := by
  induction k generalizing ports es with
  | zero =>
    constructor
    · intro h
      obtain rfl : [] = es := by simpa [readEntries] using h
      exact ⟨rfl, fun j h => absurd h (by simp)⟩
    · rintro ⟨h, -⟩
      rw [List.length_eq_zero_iff.mp h]
      rfl
  | succ k ih =>
    match ports with
    | [] =>
      constructor
      · intro h; simp [readEntries] at h
      · rintro ⟨hl, h⟩
        have := h 0 (by omega)
        simp at this
    | none :: rest =>
      constructor
      · intro h; simp [readEntries] at h
      · rintro ⟨hl, h⟩
        have := h 0 (by omega)
        simp at this
    | some e :: rest =>
      constructor
      · intro h
        simp only [readEntries] at h
        split at h
        · simp at h
        · next xs hxs =>
          obtain rfl : e :: xs = es := by simpa using h
          obtain ⟨hl, hx⟩ := (ih rest xs).mp hxs
          refine ⟨by simp [hl], fun j hj => ?_⟩
          cases j with
          | zero => rfl
          | succ j => simpa using hx j (by simpa using hj)
      · rintro ⟨hl, h⟩
        match es with
        | [] => simp at hl
        | x :: xs =>
          have h0 := h 0 (by simp)
          obtain rfl : e = x := by simpa using h0
          have hx := (ih rest xs).mpr ⟨by simpa using hl, fun j hj => by
            have := h (j + 1) (by simpa using hj)
            rwa [List.getElem?_cons_succ, List.getElem_cons_succ] at this⟩
          simp [readEntries, hx]

/-- Reading `k` entries fails exactly when one of the first `k` ports is undriven. -/
theorem readEntries_eq_none_iff (k : Nat) (ports : List (Port 20)) :
    readEntries k ports = none ↔ ∃ j, j < k ∧ ports[j]?.getD none = none := by
  induction k generalizing ports with
  | zero => simp [readEntries]
  | succ k ih =>
    match ports with
    | [] => simpa [readEntries] using ⟨0, by omega⟩
    | none :: rest => simpa [readEntries] using ⟨0, by omega, rfl⟩
    | some e :: rest =>
      have step : readEntries (k + 1) (some e :: rest) = none ↔ readEntries k rest = none := by
        simp only [readEntries]
        split <;> simp_all
      rw [step, ih rest]
      constructor
      · rintro ⟨j, hj, h⟩
        exact ⟨j + 1, by omega, by simpa using h⟩
      · rintro ⟨j, hj, h⟩
        cases j with
        | zero => simp at h
        | succ j => exact ⟨j, by omega, by simpa using h⟩

/-- The width of an entry is the entry divided by 16 (30_encoding.md R73). -/
theorem entryWbits_toNat (e : LayoutEntry) : (entryWbits e).toNat = e.toNat / 16 := by
  have := e.isLt
  simp only [entryWbits, BitVec.extractLsb'_toNat, Nat.shiftRight_eq_div_pow]
  omega

theorem entryKind_isSome (e : LayoutEntry) : (entryKind e).isSome = decide ((e.toNat / 4) % 4 ≠ 3) := by
  have h : (e.extractLsb' 2 2).toNat = (e.toNat / 4) % 4 := by
    simp [BitVec.extractLsb'_toNat, Nat.shiftRight_eq_div_pow]
  have := Nat.mod_lt (e.toNat / 4) (by omega : 0 < 4)
  unfold entryKind
  rw [h]
  generalize (e.toNat / 4) % 4 = m at *
  interval_cases m <;> rfl

theorem entryOrd_isSome (e : LayoutEntry) : (entryOrd e).isSome = decide (e.toNat % 4 ≠ 3) := by
  have h : (e.extractLsb' 0 2).toNat = e.toNat % 4 := by
    simp [BitVec.extractLsb'_toNat]
  have := Nat.mod_lt e.toNat (by omega : 0 < 4)
  unfold entryOrd
  rw [h]
  generalize e.toNat % 4 = m at *
  interval_cases m <;> rfl

/-- The entry check of the block is the entry condition of 41_layout_size.md R132. -/
theorem entryValid_iff (e : LayoutEntry) : entryValid e = true ↔ EntryOk e := by
  simp [entryValid, EntryOk, entryWbits_toNat, entryKind_isSome, entryOrd_isSome, and_assoc]

theorem sumBytes_eq_layoutLength (es : List LayoutEntry) : sumBytes es = layoutLength es := by
  induction es with
  | nil => rfl
  | cons e es ih => simp [sumBytes, layoutLength, entryBytes, entryWbits_toNat, ih] at *

/-- What `layoutBytes` answers for a valid descriptor (41_layout_size.md R133). -/
theorem layoutBytes_ok (p : Params) (es : List LayoutEntry) (n : Nat) (hn : n ≤ p.lmax) (h : ∀ e ∈ es, EntryOk e) :
    layoutBytes p n es = .ok (layoutLength es) := by
  have : es.all entryValid = true := List.all_eq_true.mpr fun e he => (entryValid_iff e).mpr (h e he)
  simp [layoutBytes, hn, this, sumBytes_eq_layoutLength]

/-- What `layoutBytes` answers for an invalid descriptor (41_layout_size.md R132). -/
theorem layoutBytes_error (p : Params) (es : List LayoutEntry) (n : Nat)
    (h : p.lmax < n ∨ ∃ e ∈ es, ¬ EntryOk e) : layoutBytes p n es = .error .unsupportedLayout := by
  have : ¬ (n ≤ p.lmax ∧ es.all entryValid = true) := by
    rintro ⟨hn, ha⟩
    rcases h with h | ⟨e, he, hbad⟩
    · omega
    · exact hbad ((entryValid_iff e).mp (List.all_eq_true.mp ha e he))
  simp only [layoutBytes, if_neg this]

/-- A layout that is driven is read as it stands. -/
theorem readLayout_of_layoutIs (s : State) (es : List LayoutEntry) (h : s.LayoutIs es)
    (hn : es.length ≤ s.build.lmax) :
    readLayout s.build s.inp = some (layoutBytes s.build es.length es) := by
  obtain ⟨hN, hlt, hE⟩ := h
  have hmod : es.length % 256 = es.length := Nat.mod_eq_of_lt hlt
  have hr : readEntries (min es.length s.build.lmax) s.inp.layE = some es :=
    (readEntries_eq_some_iff _ _ _).mpr ⟨by omega, hE⟩
  simp [readLayout, hN, hmod, hr]

/-- A driven, invalid layout is read as `UnsupportedLayout` (41_layout_size.md R132). -/
theorem readLayout_of_invalid (s : State) (h : s.LayoutInvalid) :
    readLayout s.build s.inp = some (.error .unsupportedLayout) := by
  rcases h with ⟨es, hes, hn, hbad⟩ | ⟨n, hN, hlt, hE⟩
  · rw [readLayout_of_layoutIs s es hes hn, layoutBytes_error _ _ _ (.inr hbad)]
  · cases hr : readEntries (min n.toNat s.build.lmax) s.inp.layE with
    | none =>
      obtain ⟨j, hj, hnone⟩ := (readEntries_eq_none_iff _ _).mp hr
      obtain ⟨e, he⟩ := hE j (by omega)
      simp [he] at hnone
    | some es => simp [readLayout, hN, hr, layoutBytes_error _ es n.toNat (.inl hlt)]

/-- The size operand resolves to what the host presents (40_encode.md R103). -/
theorem sizeOperand_of_sizeIs (s : State) (l : SizeSource) (v : Nat) (h : s.SizeIs l v) :
    sizeOperand s.build l s.inp = some (.ok v) := by
  cases l with
  | literal =>
    obtain ⟨z, hz, rfl⟩ := h
    simp [sizeOperand, hz]
  | layout =>
    obtain ⟨es, hes, hn, hok, rfl⟩ := h
    simp [sizeOperand, readLayout_of_layoutIs s es hes hn, layoutBytes_ok _ es _ hn hok]

end Sys2Proof.Machine
end

