-- ==== Sys2Proof/Laws/State.lean ====
section
/-! SUPPORT. One lemma for each field of the state under each update a step or the host makes. -/

namespace Sys2Proof.Machine

@[simp] theorem showResponse_build (s : State) (r : OutPorts) : (s.showResponse r).build = s.build := rfl
@[simp] theorem showResponse_inp (s : State) (r : OutPorts) : (s.showResponse r).inp = s.inp := rfl
@[simp] theorem showResponse_out (s : State) (r : OutPorts) : (s.showResponse r).out = r := rfl
@[simp] theorem showResponse_draws (s : State) (r : OutPorts) : (s.showResponse r).draws = s.draws := rfl

@[simp] theorem drawFree_build (s : State) : s.drawFree.build = s.build := rfl
@[simp] theorem drawFree_inp (s : State) : s.drawFree.inp = s.inp := rfl
@[simp] theorem drawFree_out (s : State) : s.drawFree.out = OutPorts.free s.build s.draws := rfl
@[simp] theorem drawFree_draws (s : State) : s.drawFree.draws = s.draws + 1 := rfl

@[simp] theorem present_build (s : State) (inp : InPorts) : (s.present inp).build = s.build := rfl
@[simp] theorem present_inp (s : State) (inp : InPorts) : (s.present inp).inp = inp := rfl
@[simp] theorem present_out (s : State) (inp : InPorts) : (s.present inp).out = s.out := rfl
@[simp] theorem present_draws (s : State) (inp : InPorts) : (s.present inp).draws = s.draws := rfl

@[simp] theorem withFetchWord_build (s : State) (nbits w : Nat) : (s.withFetchWord nbits w).build = s.build := rfl
@[simp] theorem withFetchWord_cmdI (s : State) (nbits w : Nat) :
    (s.withFetchWord nbits w).inp.cmdI = some (BitVec.ofNat 6 (w % 2 ^ nbits)) := rfl
@[simp] theorem withFetchWord_out (s : State) (nbits w : Nat) : (s.withFetchWord nbits w).out = s.out := rfl
@[simp] theorem withFetchWord_draws (s : State) (nbits w : Nat) : (s.withFetchWord nbits w).draws = s.draws := rfl

@[simp] theorem reset_build : State.reset.build = Params.default := rfl
@[simp] theorem reset_inp : State.reset.inp = InPorts.undriven 16 := rfl
@[simp] theorem reset_draws : State.reset.draws = 1 := rfl

end Sys2Proof.Machine
end

