-- ==== Sys2Proof/Laws/Ops.lean ====
section
/-! SUPPORT. What each shared operation does, once: later proofs cite these lemmas instead of unfolding it. -/

namespace Sys2Proof.Machine

/-- Everything `answer` can do when it gives a next state. -/
theorem answer_eq_next {s t : State} {r : Option OutPorts} (h : s.answer r = .next t) :
    s.build.legal = true ∧ ((∃ o, r = some o ∧ t = s.showResponse o) ∨ (r = none ∧ t = s.drawFree)) := by
  unfold State.answer at h
  split at h
  · next hl =>
    cases r with
    | none => exact ⟨hl, .inr ⟨rfl, by simpa using h.symm⟩⟩
    | some o => exact ⟨hl, .inl ⟨o, rfl, by simpa using h.symm⟩⟩
  · cases h

theorem answer_some {s : State} (o : OutPorts) (h : s.build.legal = true) :
    s.answer (some o) = .next (s.showResponse o) := by
  simp [State.answer, h]

theorem answer_none {s : State} (h : s.build.legal = true) : s.answer none = .next s.drawFree := by
  simp [State.answer, h]

theorem answer_illegal {s : State} (r : Option OutPorts) (h : ¬ s.build.legal = true) :
    s.answer r = .refused .illegalParameters := by
  simp [State.answer, h]

/-- The meaning of every instruction is its response, answered. -/
theorem exec_eq_answer (i : Instr) (s : State) : exec i s = s.answer (respondInstr s.build s.inp i) := by
  cases i <;> rfl

/-- A step is the answer of the whole block's function (10_state.md R26). -/
theorem step_eq_answer (s : State) : step s = s.answer (respond s.build s.inp) := by
  unfold step State.presented respond
  cases s.inp.cmdI with
  | none => rfl
  | some w => exact exec_eq_answer (decode w) s

/-- Everything a step can do when it gives a next state. -/
theorem step_eq_next {s t : State} (h : step s = .next t) :
    s.build.legal = true ∧
      ((∃ o, respond s.build s.inp = some o ∧ t = s.showResponse o) ∨
        (respond s.build s.inp = none ∧ t = s.drawFree)) :=
  answer_eq_next (step_eq_answer s ▸ h)

/-- The widths of a legal build (00_scope.md R10). -/
theorem legal_widths {p : Params} (h : p.legal = true) :
    1 ≤ p.nrBits ∧ 1 ≤ p.typeBits ∧ 1 ≤ p.sizeBits ∧ 2 ≤ p.dirBits ∧
      p.nrBits + p.typeBits + p.sizeBits + p.dirBits = 32 ∧ p.codeBits = 32 := by
  simp only [Params.legal, Params.widthsLegal, Bool.and_eq_true, decide_eq_true_eq] at h
  obtain ⟨⟨⟨⟨⟨⟨⟨h1, h2⟩, h3⟩, h4⟩, h5⟩, h6⟩, -⟩, -⟩ := h
  exact ⟨h1, h2, h3, h4, by omega, h6⟩

/-- The direction codes of a legal build (00_scope.md R11). -/
theorem legal_codes {p : Params} (h : p.legal = true) :
    [p.dirNone, p.dirWrite, p.dirRead, p.dirRw].Nodup ∧ p.dirNone < 2 ^ p.dirBits ∧ p.dirWrite < 2 ^ p.dirBits ∧
      p.dirRead < 2 ^ p.dirBits ∧ p.dirRw < 2 ^ p.dirBits := by
  simp only [Params.legal, Params.codesLegal, Bool.and_eq_true, decide_eq_true_eq, List.all_cons, List.all_nil] at h
  obtain ⟨⟨-, hn, h1, h2, h3, h4, -⟩, -⟩ := h
  exact ⟨hn, h1, h2, h3, h4⟩

/-- A field above `b` bits of others stays within its own bits. -/
theorem field_above_lt {a x b c : Nat} (hx : x < 2 ^ b) (ha : a < 2 ^ c) : a * 2 ^ b + x < 2 ^ (b + c) := by
  calc a * 2 ^ b + x < (a + 1) * 2 ^ b := by rw [Nat.succ_mul]; omega
    _ ≤ 2 ^ c * 2 ^ b := Nat.mul_le_mul_right _ ha
    _ = 2 ^ (b + c) := by rw [pow_add, Nat.mul_comm]

/-- The fields of a CommandCode, OR-ed in their places, are their sum (30_encoding.md R62). -/
theorem pack_eq_codeSum (p : Params) (d t n v : Nat) : pack p d t n v = codeSum p d t n v := by
  have hn : n % 2 ^ p.nrBits < 2 ^ p.nrBits := Nat.mod_lt _ (by positivity)
  have ht : t % 2 ^ p.typeBits < 2 ^ p.typeBits := Nat.mod_lt _ (by positivity)
  have hv : v % 2 ^ p.sizeBits < 2 ^ p.sizeBits := Nat.mod_lt _ (by positivity)
  simp only [pack, placeField, codeSum, Params.bits, Params.shift, Nat.shiftLeft_zero, Nat.or_assoc]
  generalize n % 2 ^ p.nrBits = n' at *
  generalize t % 2 ^ p.typeBits = t' at *
  generalize v % 2 ^ p.sizeBits = v' at *
  have h1 : t' * 2 ^ p.nrBits + n' < 2 ^ (p.nrBits + p.typeBits) := field_above_lt hn ht
  have h2 : v' * 2 ^ (p.nrBits + p.typeBits) + (t' * 2 ^ p.nrBits + n') < 2 ^ (p.nrBits + p.typeBits + p.sizeBits) :=
    field_above_lt h1 hv
  rw [← Nat.shiftLeft_add_eq_or_of_lt hn, Nat.shiftLeft_eq t', ← Nat.shiftLeft_add_eq_or_of_lt h1,
    Nat.shiftLeft_eq v', ← Nat.shiftLeft_add_eq_or_of_lt h2, Nat.shiftLeft_eq]
  omega

/-- A CommandCode has 32 bits (40_encode.md R100). -/
theorem codeSum_lt {p : Params} (h : p.legal = true) (d t n v : Nat) : codeSum p d t n v < 2 ^ 32 := by
  obtain ⟨-, -, -, -, hsum, -⟩ := legal_widths h
  have hn : n % 2 ^ p.nrBits < 2 ^ p.nrBits := Nat.mod_lt _ (by positivity)
  have ht : t % 2 ^ p.typeBits < 2 ^ p.typeBits := Nat.mod_lt _ (by positivity)
  have hv : v % 2 ^ p.sizeBits < 2 ^ p.sizeBits := Nat.mod_lt _ (by positivity)
  have hd : d % 2 ^ p.dirBits < 2 ^ p.dirBits := Nat.mod_lt _ (by positivity)
  rw [← hsum, codeSum]
  generalize n % 2 ^ p.nrBits = n' at *
  generalize t % 2 ^ p.typeBits = t' at *
  generalize v % 2 ^ p.sizeBits = v' at *
  generalize d % 2 ^ p.dirBits = d' at *
  have h1 : t' * 2 ^ p.nrBits + n' < 2 ^ (p.nrBits + p.typeBits) := field_above_lt hn ht
  have h2 : v' * 2 ^ (p.nrBits + p.typeBits) + (t' * 2 ^ p.nrBits + n') < 2 ^ (p.nrBits + p.typeBits + p.sizeBits) :=
    field_above_lt h1 hv
  have h3 := field_above_lt h2 hd
  omega

theorem extractField_eq_fieldOf (p : Params) (f : Field) (c : Nat) : extractField p f c = fieldOf p f c := by
  simp [extractField, fieldOf, Nat.shiftRight_eq_div_pow]

/-- The out-of-range mask of ENC as a number (40_encode.md R101). -/
theorem rangeMask_checked (p : Params) (d t n v : Nat) :
    rangeMask p d t n v true = BitVec.ofNat 4 (maskSum p d t n v) := by
  simp only [rangeMask, outOfRange, maskSum, Params.bits, ← Nat.not_lt]
  by_cases hd : d < 2 ^ p.dirBits <;> by_cases hv : v < 2 ^ p.sizeBits <;> by_cases ht : t < 2 ^ p.typeBits <;>
    by_cases hn : n < 2 ^ p.nrBits <;> simp [hd, hv, ht, hn]

/-- The out-of-range mask of a constructor, whose direction is in range (40_encode.md R101). -/
theorem rangeMask_unchecked (p : Params) (d t n v : Nat) (hd : d < 2 ^ p.dirBits) :
    rangeMask p d t n v false = BitVec.ofNat 4 (maskSum p d t n v) := by
  have : outOfRange p .dir d = false := decide_eq_false (Nat.not_le.mpr hd)
  rw [← rangeMask_checked, rangeMask, rangeMask, this, Bool.and_false, Bool.and_false]

/-- The mask is 0 exactly when every operand is in range (40_encode.md R112). -/
theorem maskSum_eq_zero_iff (p : Params) (d t n v : Nat) :
    BitVec.ofNat 4 (maskSum p d t n v) = 0#4 ↔ InRange p d t n v := by
  unfold maskSum InRange
  by_cases hd : d < 2 ^ p.dirBits <;> by_cases hv : v < 2 ^ p.sizeBits <;> by_cases ht : t < 2 ^ p.typeBits <;>
    by_cases hn : n < 2 ^ p.nrBits <;>
    simp only [hd, hv, ht, hn, if_true, if_false, and_true, and_false, iff_false] <;> decide

theorem raiseError_eq (e : CodecError) : raiseError e = errorOut e.code e.rng := rfl

/-- The end of an encode that succeeds (40_encode.md R102). -/
theorem finish_success (p : Params) (policy : RangePolicy) (d t n v : Nat) (check : Bool)
    (hmask : rangeMask p d t n v check = BitVec.ofNat 4 (maskSum p d t n v))
    (h : policy = .wrap ∨ InRange p d t n v) :
    finish p policy d t n v check = encodeSuccess (BitVec.ofNat 4 (maskSum p d t n v)) (codeSum p d t n v) := by
  have : ¬ (policy = .strict ∧ rangeMask p d t n v check ≠ 0#4) := by
    rintro ⟨rfl, hne⟩
    rcases h with h | h
    · cases h
    · exact hne (hmask ▸ (maskSum_eq_zero_iff p d t n v).mpr h)
  unfold finish
  dsimp only
  rw [if_neg this, hmask, pack_eq_codeSum]
  rfl

/-- The end of a strict encode with an operand out of range (40_encode.md R102, 60_exceptions.md R181). -/
theorem finish_invalidFieldRange (p : Params) (d t n v : Nat) (check : Bool)
    (hmask : rangeMask p d t n v check = BitVec.ofNat 4 (maskSum p d t n v)) (h : ¬ InRange p d t n v) :
    finish p .strict d t n v check = errorOut 1#3 (BitVec.ofNat 4 (maskSum p d t n v)) := by
  have : rangeMask p d t n v check ≠ 0#4 := fun h0 => h ((maskSum_eq_zero_iff p d t n v).mp (hmask ▸ h0))
  unfold finish
  dsimp only
  rw [if_pos ⟨rfl, this⟩, hmask]
  rfl

/-- A free draw is within the widths of the ports. -/
theorem free_fits (p : Params) (k : Nat) : (OutPorts.free p k).Fits p := by
  have fit : ∀ x w : Nat, (BitVec.ofNat 32 (x % 2 ^ w)).toNat < 2 ^ w := fun x w =>
    lt_of_le_of_lt (by simpa using Nat.mod_le _ _) (Nat.mod_lt x (by positivity))
  exact ⟨fit _ _, fit _ _, fit _ _, fit _ _⟩

end Sys2Proof.Machine
end

