-- ==== Sys2Proof/Laws/Assembler.lean ====
section
/-! SUPPORT. What the shared operations of the assembler and of a caller's integers do. -/

namespace Sys2Proof.Machine

/-- A caller's integer on a port, as a number: the integer modulo `2^32` (00_scope.md R12). -/
theorem hostOperand_toNat (z : Int) : ((hostOperand z).toNat : Int) = z % 2 ^ 32 := by
  rw [hostOperand, BitVec.toNat_ofInt]
  exact Int.toNat_of_nonneg (Int.emod_nonneg _ (by decide))

@[simp] theorem hostOperand_natCast (n : Nat) : hostOperand (n : Int) = BitVec.ofNat 32 n := BitVec.ofInt_natCast 32 n

@[simp] theorem withIntegers_dirI (inp : InPorts) (d t n z i : Int) :
    (inp.withIntegers d t n z i).dirI = some (hostOperand d) := rfl
@[simp] theorem withIntegers_typeI (inp : InPorts) (d t n z i : Int) :
    (inp.withIntegers d t n z i).typeI = some (hostOperand t) := rfl
@[simp] theorem withIntegers_nrI (inp : InPorts) (d t n z i : Int) :
    (inp.withIntegers d t n z i).nrI = some (hostOperand n) := rfl
@[simp] theorem withIntegers_sizeI (inp : InPorts) (d t n z i : Int) :
    (inp.withIntegers d t n z i).sizeI = some (hostOperand z) := rfl
@[simp] theorem withIntegers_idxI (inp : InPorts) (d t n z i : Int) :
    (inp.withIntegers d t n z i).idxI = some (hostOperand i) := rfl

/-- A layout entry has its width, kind and order at the places of 30_encoding.md R73. -/
theorem layoutEntry_eq (e : AsmEntry) :
    layoutEntry (BitVec.ofNat 16 e.width) e.kind (e.order.getD .native) = BitVec.ofNat 20 (entryNumber e) := by
  obtain ⟨kind, width, order⟩ := e
  apply BitVec.eq_of_toNat_eq
  unfold layoutEntry
  rw [BitVec.toNat_append, BitVec.toNat_append, ← Nat.shiftLeft_add_eq_or_of_lt (BitVec.isLt _),
    ← Nat.shiftLeft_add_eq_or_of_lt (BitVec.isLt _)]
  simp only [Nat.shiftLeft_eq, BitVec.toNat_ofNat]
  cases kind <;> rcases order with _ | o <;> try cases o
  all_goals simp [kindCode, ordCode, entryNumber]; omega

/-- The entries the assembler makes, where every width has 16 bits. -/
theorem asmEntries_ok (es : List AsmEntry) (h : ∀ e ∈ es, e.width < 65536) :
    asmEntries es = .ok (es.map (fun e => BitVec.ofNat 20 (entryNumber e))) := by
  induction es with
  | nil => rfl
  | cons e es ih =>
    simp only [asmEntries, if_pos (h e (by simp)), ih (fun x hx => h x (by simp [hx])), layoutEntry_eq, List.map_cons]

/-- What `asmLayout` answers for a layout that fits. -/
theorem asmLayout_ok (p : Params) (es : List AsmEntry) (inp : InPorts) (h : LayoutFits p es) :
    asmLayout p es inp = .ok { inp with
      layN := some (BitVec.ofNat 8 es.length)
      layE := (es.map (fun e => BitVec.ofNat 20 (entryNumber e))).map some ++
        List.replicate (p.lmax - es.length) (some 0) } := by
  obtain ⟨h1, h2, h3⟩ := h
  simp only [asmLayout, if_pos (And.intro h1 h2), asmEntries_ok es h3]

/-- What `asmLayout` answers for too many entries (30_encoding.md R77). -/
theorem asmLayout_tooMany (p : Params) (es : List AsmEntry) (inp : InPorts) (h : p.lmax < es.length) :
    asmLayout p es inp = .error .tooManyEntries := by
  rw [asmLayout, if_neg (fun hc => absurd hc.1 (by omega))]

end Sys2Proof.Machine
end

