-- ==== Sys2Proof/Laws/PerInstr.lean ====
section
/-! SUPPORT. The statements made of every instruction, one lemma for each constructor. -/

namespace Sys2Proof.Laws

/-- Decoding the command word of a well-formed instruction gives it back, from the wires and from a byte. -/
def DecodeEncode.Statement (i : Instr) : Prop :=
  i.wellFormed = true → decode (encode i) = i ∧ decodeBytes [encodeByte i] = .ok (i, [])

theorem DecodeEncode.mkn (l : SizeSource) (p : RangePolicy) : DecodeEncode.Statement (.mkn l p) := by
  cases l <;> cases p <;> exact fun _ => ⟨rfl, rfl⟩

theorem DecodeEncode.mkw (l : SizeSource) (p : RangePolicy) : DecodeEncode.Statement (.mkw l p) := by
  cases l <;> cases p <;> exact fun _ => ⟨rfl, rfl⟩

theorem DecodeEncode.mkr (l : SizeSource) (p : RangePolicy) : DecodeEncode.Statement (.mkr l p) := by
  cases l <;> cases p <;> exact fun _ => ⟨rfl, rfl⟩

theorem DecodeEncode.mkrw (l : SizeSource) (p : RangePolicy) : DecodeEncode.Statement (.mkrw l p) := by
  cases l <;> cases p <;> exact fun _ => ⟨rfl, rfl⟩

theorem DecodeEncode.enc (l : SizeSource) (p : RangePolicy) : DecodeEncode.Statement (.enc l p) := by
  cases l <;> cases p <;> exact fun _ => ⟨rfl, rfl⟩

theorem DecodeEncode.dec (l : SizeSource) (p : RangePolicy) : DecodeEncode.Statement (.dec l p) := by
  cases l <;> cases p <;> exact fun _ => ⟨rfl, rfl⟩

theorem DecodeEncode.lsize (l : SizeSource) (p : RangePolicy) : DecodeEncode.Statement (.lsize l p) := by
  cases l <;> cases p <;> exact fun _ => ⟨rfl, rfl⟩

theorem DecodeEncode.const (l : SizeSource) (p : RangePolicy) : DecodeEncode.Statement (.const l p) := by
  cases l <;> cases p <;> exact fun _ => ⟨rfl, rfl⟩

theorem DecodeEncode.reserved (l : SizeSource) (p : RangePolicy) (op : BitVec 4) :
    DecodeEncode.Statement (.reserved l p op) := by
  have h : ∀ op : BitVec 4, (Instr.reserved l p op).wellFormed = true →
      decode (encode (.reserved l p op)) = .reserved l p op ∧
        (encodeByte (.reserved l p op)).toNat < 64 ∧
        (encodeByte (.reserved l p op)).extractLsb' 0 6 = encode (.reserved l p op) := by
    cases l <;> cases p <;> decide
  intro hw
  obtain ⟨h1, h2, h3⟩ := h op hw
  exact ⟨h1, by rw [decodeBytes, if_pos h2, h3, h1]⟩

end Sys2Proof.Laws
end

