-- ==== Sys2Proof/Tests/Slice0.lean ====
section
/-! SUPPORT. The model's own tests. Expected results are the vectors of 95_test_vectors.md (named in each docstring) or
are worked out by hand from the rule named. The theorems `witness_<statement>` each show states and operands that meet
all hypotheses of that statement of Certificates/Slice0/Obligations.lean, at boundary values. -/

namespace Sys2Proof.Tests

open Sys2Proof.Machine

/-! ## Builders -/

/-- The entries of 95_test_vectors.md: `u8`, `u32`, `r256`, `r65528`, `u12`. -/
def u8 : LayoutEntry := 0x00080#20
def u32 : LayoutEntry := 0x00200#20
def r256 : LayoutEntry := 0x01008#20
def r65528 : LayoutEntry := 0xFFF88#20
def u12 : LayoutEntry := 0x000C0#20

/-- The default build with every port driven: a command word, the four operands, a layout, a code and an index. -/
def request (w : CmdWord) (d t n z : Operand) (es : List LayoutEntry) (c : Code) (i : Operand) : State where
  build := Params.default
  inp := { cmdI := some w, dirI := some d, typeI := some t, nrI := some n, sizeI := some z,
           layN := some (BitVec.ofNat 8 es.length), layE := es.map some ++ List.replicate (16 - es.length) (some 0),
           codeI := some c, idxI := some i }
  out := OutPorts.zero
  draws := 0

/-- An encode request. -/
def encodeRequest (w : CmdWord) (d t n z : Operand) (es : List LayoutEntry) : State := request w d t n z es 0 0

/-- LSIZE of 17 entries counted, over 16 ports of `u8` (vector L-11). -/
def tooMany : State :=
  let s := request 0x06 0 0 0 0 (List.replicate 16 u8) 0 0
  s.present { s.inp with layN := some 17 }

/-- The outputs after a step. -/
def outputs (o : Host.Outcome State Fault Refusal) : Option OutPorts :=
  match o with
  | .next s => some s.out
  | .fault _ => none
  | .refused _ => none

/-- A success that shows a code. -/
def showsCode (rng : BitVec 4) (code : Code) : Option OutPorts :=
  some { OutPorts.zero with okO := 1#1, rngO := rng, codeO := code }

/-- An error. -/
def showsError (err : BitVec 3) (rng : BitVec 4) : Option OutPorts :=
  some { OutPorts.zero with errO := err, rngO := rng }

/-! ## Well-formedness and decoding -/

/-- OP 3 is no reserved OP (30_encoding.md R71). -/
theorem test_wellFormed_refuses_reserved_below_8 :
    (Instr.reserved .literal .wrap 3#4).wellFormed = false ∧ (Instr.reserved .literal .wrap 7#4).wellFormed = false ∧
      (Instr.reserved .literal .wrap 8#4).wellFormed = true := by decide

/-- Words written bit by bit from 30_encoding.md R66 and R67, `L S OP`. -/
theorem test_decode_mkn : decode 0b100000#6 = .mkn .layout .wrap := by decide
theorem test_decode_mkw : decode 0b010001#6 = .mkw .literal .strict := by decide
theorem test_decode_mkr : decode 0b110010#6 = .mkr .layout .strict := by decide
theorem test_decode_mkrw : decode 0b000011#6 = .mkrw .literal .wrap := by decide
theorem test_decode_enc : decode 0b100100#6 = .enc .layout .wrap := by decide
theorem test_decode_dec : decode 0b000101#6 = .dec .literal .wrap := by decide
theorem test_decode_lsize : decode 0b010110#6 = .lsize .literal .strict := by decide
theorem test_decode_const : decode 0b000111#6 = .const .literal .wrap := by decide
theorem test_decode_reserved : decode 0b011001#6 = .reserved .literal .strict 9#4 := by decide

/-- Bytes that are no command word are refused by name (log 12). -/
theorem test_decodeBytes_refuses :
    decodeBytes [] = .error .noBytes ∧ decodeBytes [0x40#8] = .error (.notSixBits 0x40#8) ∧
      decodeTableWord 8 0x35 = some (.dec .layout .strict) ∧ decodeTableWord 8 0x80 = none := ⟨rfl, rfl, rfl, rfl⟩

/-! ## One step for each instruction -/

/-- N2. -/
theorem test_mkn_wraps : outputs (step (encodeRequest 0x00 0 0x16B 0x101 0 [])) = showsCode 0b0011#4 0x00006B01#32 := by
  decide
/-- N4. -/
theorem test_mkn_ignores_layout :
    outputs (step (encodeRequest 0x20 0 0x6B 1 99 [u12])) = showsCode 0#4 0x00006B01#32 := by decide
/-- W-3. -/
theorem test_mkw_size_wraps : outputs (step (encodeRequest 0x01 0 0x6B 1 16384 [])) = showsCode 0b0100#4 0x40006B01#32 := by
  decide
/-- W-4. -/
theorem test_mkw_strict_size : outputs (step (encodeRequest 0x11 0 0x6B 1 16384 [])) = showsError 1#3 0b0100#4 := by
  decide
/-- R-9. -/
theorem test_mkr_long_layout_wraps :
    outputs (step (encodeRequest 0x22 0 0x6B 1 0 [r65528, r65528, r65528])) = showsCode 0b0100#4 0x9FFD6B01#32 := by
  decide
/-- R-8: the layout comes before the range. -/
theorem test_mkr_layout_before_range : outputs (step (encodeRequest 0x32 0 300 1 0 [u12])) = showsError 2#3 0#4 := by
  decide
/-- RW-1. -/
theorem test_mkrw : outputs (step (encodeRequest 0x03 0 0x6B 5 8 [])) = showsCode 0#4 0xC0086B05#32 := by decide
/-- P2 step 1. -/
theorem test_mkrw_strict_layout :
    outputs (step (encodeRequest 0x33 0 0x6B 9 0 [u8, u32, r256])) = showsCode 0#4 0xC0256B09#32 := by decide
/-- E4. -/
theorem test_enc_strict_direction : outputs (step (encodeRequest 0x14 4 0x6B 1 1 [])) = showsError 1#3 0b1000#4 := by
  decide
/-- E7. -/
theorem test_enc_layout : outputs (step (encodeRequest 0x24 1 0x6B 1 0 [u8, u32, r256])) = showsCode 0#4 0x40256B01#32 := by
  decide
/-- D-6: `L` and `S` are ignored. -/
theorem test_dec_ignores_L_S :
    outputs (step (request 0x35 0 0 0 0 [] 0x80046B04#32 0)) =
      some { OutPorts.zero with okO := 1#1, dirO := 2, sizeO := 4, typeO := 0x6B, nrO := 4 } := by decide
/-- D-3. -/
theorem test_dec_all_ones :
    outputs (step (request 0x05 0 0 0 0 [] 0xFFFFFFFF#32 0)) =
      some { OutPorts.zero with okO := 1#1, dirO := 3, sizeO := 0x3FFF, typeO := 0xFF, nrO := 0xFF } := by decide
/-- L-3. -/
theorem test_lsize_ignores_kind_and_order :
    outputs (step (request 0x06 0 0 0 0 [0x00082#20, 0x00105#20, u32] 0 0)) =
      some { OutPorts.zero with okO := 1#1, lsizeO := 7 } := by decide
/-- L-11. -/
theorem test_lsize_too_many : outputs (step tooMany) = showsError 2#3 0#4 := by decide
/-- K-3: a success that shows 0. -/
theorem test_const_mode0 : outputs (step (request 0x07 0 0 0 0 [] 0 11)) = showsCode 0#4 0#32 := by decide
/-- K-5. -/
theorem test_const_bad_index : outputs (step (request 0x07 0 0 0 0 [] 0 0xFFFFFFFF)) = showsError 4#3 0#4 := by decide
/-- X-2. -/
theorem test_reserved : outputs (step (request 0x3F 0 0 0 0 [] 0 0)) = showsError 3#3 0#4 := by decide
/-- No operand port is read for a reserved OP (30_encoding.md R76), so right after reset it answers. -/
theorem test_reserved_after_reset : outputs (step (State.reset.withFetchWord 8 0x08)) = showsError 3#3 0#4 := by decide

/-! ## Builds, undriven ports, the assembler -/

/-- A legal build of other widths: 3 bits of Direction, 13 of Size, direction codes 1, 4 and 2. -/
def otherBuild : Params :=
  { Params.default with sizeBits := 13, dirBits := 3, dirNone := 1, dirWrite := 4, dirRead := 2 }

/-- By hand from 40_encode.md R100: 6 at bit 29, 8 at bit 16. -/
theorem test_other_build :
    otherBuild.legal = true ∧
      outputs (step { encodeRequest 0x03 0 0x6B 5 8 [] with build := otherBuild }) = showsCode 0#4 0xC0086B05#32 ∧
      outputs (step { encodeRequest 0x02 0 0x6B 5 8192 [] with build := otherBuild }) = showsCode 0b0100#4 0x40006B05#32 := by
  decide

/-- 00_scope.md R10 and R11, and the codes that 30_encoding.md R64 gives the default widths. -/
theorem test_illegal_builds :
    ({ Params.default with sizeBits := 13 }).legal = false ∧
      ({ Params.default with sizeBits := 15, dirBits := 1 }).legal = false ∧
      ({ otherBuild with dirWrite := 3 }).legal = false ∧
      ({ otherBuild with dirRead := 8 }).legal = false ∧
      ({ Params.default with dirWrite := 2, dirRead := 1 }).legal = false := by decide

/-- 70_reset_and_hazards.md R217: with a read port undriven the step goes on, the outputs are the next free draw. -/
theorem test_undriven_is_free :
    step State.reset = .next { State.reset with out := OutPorts.free Params.default 1, draws := 2 } := rfl

/-- 30_encoding.md R77, R-6: `MKR 'k', 7, [u8, u32, r256]`. -/
theorem test_assemble_text :
    ((parseLine ['M', 'K', 'R', ' ', '\'', 'k', '\'', ',', ' ', '7', ',', ' ', '[', 'u', '8', ',', ' ', 'u', '3', '2',
        ',', ' ', 'r', '2', '5', '6', ']']).map (fun line =>
      (assemble Params.default line).toOption.map (fun inp => outputs (step (State.reset.present inp))))) =
      some (some (showsCode 0#4 0x80256B07#32)) := by decide

/-- 30_encoding.md R77, E4: `ENC.S 4, 0x6B, 1, 1`; and `CONST MODE_3`. -/
theorem test_parse_suffix_and_names :
    parseLine ['E', 'N', 'C', '.', 'S', ' ', '4', ',', ' ', '0', 'x', '6', 'B', ',', ' ', '1', ',', ' ', '1'] =
        some ⟨true, .enc (.num (.dec 4)) (.hex 0x6B) (.dec 1) (some (.num (.dec 1)))⟩ ∧
      parseLine ['C', 'O', 'N', 'S', 'T', ' ', 'M', 'O', 'D', 'E', '_', '3'] =
        some ⟨false, .const (.named .mode3)⟩ := by decide

/-- 30_encoding.md R77: what the assembler refuses, by name. -/
theorem test_assembler_refuses :
    assemble Params.default ⟨true, .dec (.dec 0)⟩ = .error .suffixRefused ∧
      assemble Params.default ⟨false, .lsize (List.replicate 17 ⟨.unsigned, 8, none⟩)⟩ = .error .tooManyEntries ∧
      assemble Params.default ⟨false, .lsize [⟨.raw, 65536, none⟩]⟩ = .error .widthTooLarge ∧
      assemble Params.default ⟨false, .reserved 7⟩ = .error .notReservedOp := ⟨rfl, rfl, rfl, rfl⟩

/-- 00_scope.md R12, by hand: an ENC of four times -1 wraps to a code of ones, each operand being 0xFFFFFFFF. -/
theorem test_negative_integers :
    outputs (step (State.reset.present
      (InPorts.withIntegers { InPorts.undriven 16 with cmdI := some 0x04 } (-1) (-1) (-1) (-1) (-1)))) =
        showsCode 0b1111#4 0xFFFFFFFF#32 ∧
      hostOperand (-1) = 0xFFFFFFFF#32 ∧ hostOperand (2 ^ 32 + 1) = 1#32 := by decide

/-- The two forms of numerals that the model takes beside those the spec writes (log 26, 27). -/
theorem test_parse_numeral_choices :
    parseLine ['D', 'E', 'C', ' ', '0', 'x', '6', 'b'] = parseLine ['D', 'E', 'C', ' ', '0', 'x', '6', 'B'] ∧
      parseLine ['D', 'E', 'C', ' ', '0', 'x', '6', 'b'] = some ⟨false, .dec (.hex 0x6B)⟩ ∧
      parseLine ['r', 'e', 's', 'e', 'r', 'v', 'e', 'd', ' ', 'O', 'P', '=', '9'] = some ⟨false, .reserved 9⟩ ∧
      parseLine ['r', 'e', 's', 'e', 'r', 'v', 'e', 'd', ' ', 'O', 'P', '=', '0', 'x', 'F'] =
        some ⟨false, .reserved 15⟩ := by decide

/-! ## Witnesses -/

/-- Every operand at the largest value of its field, and a layout of 37 bytes. -/
def top (w : CmdWord) : State := request w 3 255 255 16383 [u8, u32, r256] 0xFFFFFFFF#32 14

/-- Every operand one above its field, a layout of 24573 bytes, and the first index outside the ROM. -/
def beyond (w : CmdWord) : State := request w 4 256 256 16384 [r65528, r65528, r65528] 0 15

theorem request_layoutIs (w : CmdWord) (d t n z : Operand) (es : List LayoutEntry) (c : Code) (i : Operand)
    (h : es.length < 256) : (request w d t n z es c i).LayoutIs es := by
  refine ⟨rfl, h, fun j hj => ?_⟩
  show (es.map some ++ List.replicate (16 - es.length) (some 0))[j]? = _
  rw [List.getElem?_append_left (by simpa using hj)]
  simp [hj]

theorem top_layout (w : CmdWord) :
    (top w).LayoutIs [u8, u32, r256] ∧ ∀ e ∈ [u8, u32, r256], EntryOk e :=
  ⟨request_layoutIs _ _ _ _ _ _ _ _ (by decide), by simp [EntryOk, u8, u32, r256]⟩

theorem beyond_layout (w : CmdWord) :
    (beyond w).LayoutIs [r65528, r65528, r65528] ∧ ∀ e ∈ [r65528, r65528, r65528], EntryOk e :=
  ⟨request_layoutIs _ _ _ _ _ _ _ _ (by decide), by simp [EntryOk, r65528]⟩

theorem top_sizes (w : CmdWord) : (top w).SizeIs .literal 16383 ∧ (top w).SizeIs .layout 37 :=
  ⟨⟨16383, rfl, rfl⟩, _, (top_layout w).1, by show 3 ≤ 16; decide, (top_layout w).2, by decide⟩

theorem beyond_sizes (w : CmdWord) : (beyond w).SizeIs .literal 16384 ∧ (beyond w).SizeIs .layout 24573 :=
  ⟨⟨16384, rfl, rfl⟩, _, (beyond_layout w).1, by show 3 ≤ 16; decide, (beyond_layout w).2, by decide⟩

/-- The operands of `top` are in range with every direction code of the build, those of `beyond` with none. -/
theorem top_in_range :
    InRange Params.default 0 255 255 0 ∧ InRange Params.default 1 255 255 16383 ∧
      InRange Params.default 2 255 255 16383 ∧ InRange Params.default 3 255 255 37 := by
  simp [InRange, Params.default]

theorem beyond_out_of_range (d v : Nat) : ¬ InRange Params.default d 256 256 v := by
  simp [InRange, Params.default]

theorem witness_StepRunsPresentedInstruction :
    (top 0x2F).inp.cmdI = some 0x2F#6 ∧ decode 0x2F#6 = .reserved .layout .wrap 15#4 ∧
      (Instr.reserved .layout .wrap 15#4).wellFormed = true := by decide

theorem witness_DecodeOfEncode :
    (Instr.reserved .layout .strict 8#4).wellFormed = true ∧ (Instr.mkn .literal .wrap).wellFormed = true := by decide

theorem witness_TableWordRuns : 63 < 64 ∧ (64 ≤ 64 ∧ 64 < 256) ∧ (64 ≤ 255 ∧ 255 < 256) := by decide

/-- A width of 12 bits, and a count of 17 over 16 driven entry ports, make a layout invalid. -/
theorem invalid_layouts : (request 0x26 3 300 255 0 [u12] 0 0).LayoutInvalid ∧ tooMany.LayoutInvalid := by
  refine ⟨.inl ⟨[u12], request_layoutIs _ _ _ _ _ _ _ _ (by decide), by decide, u12, by simp, ?_⟩,
    .inr ⟨17, rfl, by decide, fun j hj => ⟨u8, ?_⟩⟩⟩
  · simp [EntryOk, u12]
  · have := (request_layoutIs 0x06 0 0 0 0 (List.replicate 16 u8) 0 0 (by decide)).2.2 j hj
    exact this.trans (congrArg (fun e => some (some e)) (List.getElem_replicate _))

/-- In range and strict, with the command word; and out of range. -/
theorem witness_MknPacksNoneWithSizeZero :
    ((top 0x30).build.legal = true ∧ (top 0x30).inp.typeI = some 255 ∧ (top 0x30).inp.nrI = some 255 ∧
      InRange (top 0x30).build (top 0x30).build.dirNone 255 255 0 ∧
      (top 0x30).inp.cmdI = some (BitVec.ofNat 6 (commandWord .layout .strict 0))) ∧
    ((beyond 0x10).build.legal = true ∧ (beyond 0x10).inp.typeI = some 256 ∧ (beyond 0x10).inp.nrI = some 256 ∧
      ¬ InRange (beyond 0x10).build (beyond 0x10).build.dirNone 256 256 0) :=
  ⟨⟨by decide, rfl, rfl, top_in_range.1, by decide⟩, by decide, rfl, rfl, beyond_out_of_range _ _⟩

/-- In range and strict; out of range and strict; an invalid layout; and the command word. -/
theorem witness_MkwPacksWrite :
    ((top 17).build.legal = true ∧ (top 17).inp.typeI = some 255 ∧ (top 17).inp.nrI = some 255 ∧
      (top 17).SizeIs .literal 16383 ∧ InRange (top 17).build (top 17).build.dirWrite 255 255 16383 ∧
      (top 17).inp.cmdI = some (BitVec.ofNat 6 (commandWord .literal .strict 1))) ∧
    ((beyond 17).build.legal = true ∧ (beyond 17).inp.typeI = some 256 ∧
      (beyond 17).inp.nrI = some 256 ∧ (beyond 17).SizeIs .literal 16384 ∧
      (beyond 17).SizeIs .layout 24573 ∧ ∀ d v, ¬ InRange (beyond 17).build d 256 256 v) ∧
    (tooMany.build.legal = true ∧ tooMany.inp.typeI = some 0 ∧ tooMany.inp.nrI = some 0 ∧ tooMany.LayoutInvalid) :=
  ⟨⟨by decide, rfl, rfl, (top_sizes _).1, top_in_range.2.1, by decide⟩,
    ⟨by decide, rfl, rfl, (beyond_sizes _).1, (beyond_sizes _).2, beyond_out_of_range⟩, by decide, rfl, rfl,
    invalid_layouts.2⟩

/-- In range and strict; out of range and strict; an invalid layout; and the command word. -/
theorem witness_MkrPacksRead :
    ((top 18).build.legal = true ∧ (top 18).inp.typeI = some 255 ∧ (top 18).inp.nrI = some 255 ∧
      (top 18).SizeIs .literal 16383 ∧ InRange (top 18).build (top 18).build.dirRead 255 255 16383 ∧
      (top 18).inp.cmdI = some (BitVec.ofNat 6 (commandWord .literal .strict 2))) ∧
    ((beyond 18).build.legal = true ∧ (beyond 18).inp.typeI = some 256 ∧
      (beyond 18).inp.nrI = some 256 ∧ (beyond 18).SizeIs .literal 16384 ∧
      (beyond 18).SizeIs .layout 24573 ∧ ∀ d v, ¬ InRange (beyond 18).build d 256 256 v) ∧
    (tooMany.build.legal = true ∧ tooMany.inp.typeI = some 0 ∧ tooMany.inp.nrI = some 0 ∧ tooMany.LayoutInvalid) :=
  ⟨⟨by decide, rfl, rfl, (top_sizes _).1, top_in_range.2.2.1, by decide⟩,
    ⟨by decide, rfl, rfl, (beyond_sizes _).1, (beyond_sizes _).2, beyond_out_of_range⟩, by decide, rfl, rfl,
    invalid_layouts.2⟩

/-- In range and strict; out of range and strict; an invalid layout; and the command word. -/
theorem witness_MkrwPacksReadOrWrite :
    ((top 51).build.legal = true ∧ (top 51).inp.typeI = some 255 ∧ (top 51).inp.nrI = some 255 ∧
      (top 51).SizeIs .layout 37 ∧ InRange (top 51).build ((top 51).build.dirRead ||| (top 51).build.dirWrite) 255 255 37 ∧
      (top 51).inp.cmdI = some (BitVec.ofNat 6 (commandWord .layout .strict 3))) ∧
    ((beyond 51).build.legal = true ∧ (beyond 51).inp.typeI = some 256 ∧
      (beyond 51).inp.nrI = some 256 ∧ (beyond 51).SizeIs .literal 16384 ∧
      (beyond 51).SizeIs .layout 24573 ∧ ∀ d v, ¬ InRange (beyond 51).build d 256 256 v) ∧
    (tooMany.build.legal = true ∧ tooMany.inp.typeI = some 0 ∧ tooMany.inp.nrI = some 0 ∧ tooMany.LayoutInvalid) :=
  ⟨⟨by decide, rfl, rfl, (top_sizes _).2, top_in_range.2.2.2, by decide⟩,
    ⟨by decide, rfl, rfl, (beyond_sizes _).1, (beyond_sizes _).2, beyond_out_of_range⟩, by decide, rfl, rfl,
    invalid_layouts.2⟩

/-- In range and strict; out of range and strict; an invalid layout; and the command word. -/
theorem witness_EncPacksItsDirection :
    ((top 52).build.legal = true ∧ (top 52).inp.typeI = some 255 ∧ (top 52).inp.nrI = some 255 ∧
      (top 52).SizeIs .layout 37 ∧ InRange (top 52).build 3 255 255 37 ∧
      (top 52).inp.cmdI = some (BitVec.ofNat 6 (commandWord .layout .strict 4)) ∧
      (top 52).inp.dirI = some 3 ∧ (beyond 52).inp.dirI = some 4 ∧ tooMany.inp.dirI = some 0) ∧
    ((beyond 52).build.legal = true ∧ (beyond 52).inp.typeI = some 256 ∧
      (beyond 52).inp.nrI = some 256 ∧ (beyond 52).SizeIs .literal 16384 ∧
      (beyond 52).SizeIs .layout 24573 ∧ ∀ d v, ¬ InRange (beyond 52).build d 256 256 v) ∧
    (tooMany.build.legal = true ∧ tooMany.inp.typeI = some 0 ∧ tooMany.inp.nrI = some 0 ∧ tooMany.LayoutInvalid) :=
  ⟨⟨by decide, rfl, rfl, (top_sizes _).2, top_in_range.2.2.2, by decide, rfl, rfl, rfl⟩,
    ⟨by decide, rfl, rfl, (beyond_sizes _).1, (beyond_sizes _).2, beyond_out_of_range⟩, by decide, rfl, rfl,
    invalid_layouts.2⟩

theorem witness_StrictAgreesWithWrap :
    (top 0x14).build.legal = true ∧ (top 0x14).EncodeOperands (.enc .literal .strict) 3 255 255 16383 ∧
      (top 0x14).EncodeOperands (.mkn .layout .wrap) 0 255 255 0 ∧
      (top 0x14).EncodeOperands (.mkw .layout .wrap) 1 255 255 37 :=
  ⟨by decide, ⟨⟨255, rfl, rfl⟩, ⟨255, rfl, rfl⟩, ⟨3, rfl, rfl⟩, (top_sizes _).1⟩,
    ⟨⟨255, rfl, rfl⟩, ⟨255, rfl, rfl⟩, rfl, rfl⟩, ⟨255, rfl, rfl⟩, ⟨255, rfl, rfl⟩, rfl, (top_sizes _).2⟩

/-- MKR and MKW of one set of operands (95_test_vectors.md W2) differ in the direction alone and both succeed. -/
theorem witness_FieldsAreIndependent :
    (top 0x12).build.legal = true ∧ (top 0x12).EncodeOperands (.mkr .literal .strict) 2 255 255 16383 ∧
      (top 0x12).EncodeOperands (.mkw .literal .strict) 1 255 255 16383 ∧
      (∃ a, exec (.mkr .literal .strict) (top 0x12) = .next a ∧ a.out.okO = 1#1) ∧
      ∃ b, exec (.mkw .literal .strict) (top 0x12) = .next b ∧ b.out.okO = 1#1 :=
  ⟨by decide, ⟨⟨255, rfl, rfl⟩, ⟨255, rfl, rfl⟩, rfl, (top_sizes _).1⟩,
    ⟨⟨255, rfl, rfl⟩, ⟨255, rfl, rfl⟩, rfl, (top_sizes _).1⟩, ⟨_, rfl, by decide⟩, _, rfl, by decide⟩

theorem witness_DirectionFieldOfConstructors :
    ((top 0x12).build = Params.default ∧ (top 0x12).inp.typeI = some 255 ∧ (top 0x12).inp.nrI = some 255 ∧
      (top 0x12).SizeIs .literal 16383 ∧ 16383 < 16384 ∧ 255 < 256) ∧
    ((beyond 0x22).build = Params.default ∧ (beyond 0x22).inp.typeI = some 256 ∧ (beyond 0x22).inp.nrI = some 256 ∧
      (beyond 0x22).SizeIs .layout 24573) :=
  ⟨⟨rfl, rfl, rfl, (top_sizes _).1, by decide, by decide⟩, rfl, rfl, rfl, (beyond_sizes _).2⟩

theorem witness_MkrwIsMkrOrMkw :
    (beyond 0x23).build.legal = true ∧ (beyond 0x23).inp.typeI = some 256 ∧ (beyond 0x23).inp.nrI = some 256 ∧
      (beyond 0x23).SizeIs .layout 24573 := ⟨by decide, rfl, rfl, (beyond_sizes _).2⟩

theorem witness_MknIsEncOfNone :
    (encodeRequest 0x00 0 256 255 0 []).build.legal = true ∧ (encodeRequest 0x00 0 256 255 0 []).inp.dirI = some 0 ∧
      (0 : Operand).toNat = (encodeRequest 0x00 0 256 255 0 []).build.dirNone ∧
      (encodeRequest 0x00 0 256 255 0 []).inp.typeI = some 256 ∧ (encodeRequest 0x00 0 256 255 0 []).inp.nrI = some 255 ∧
      (encodeRequest 0x00 0 256 255 0 []).inp.sizeI = some 0 := by decide

theorem witness_CommandCodeLayout :
    (top 0x05).build = Params.default ∧
      (top 0x05).inp.codeI = some (3#2 ++ 0x3FFF#14 ++ 0xFF#8 ++ 0xFF#8 : BitVec 32) ∧
      (top 0x05).inp.dirI = some ((3#2).zeroExtend 32) ∧ (top 0x05).inp.sizeI = some ((0x3FFF#14).zeroExtend 32) ∧
      (top 0x05).inp.typeI = some ((0xFF#8).zeroExtend 32) ∧ (top 0x05).inp.nrI = some ((0xFF#8).zeroExtend 32) := by
  decide

/-- The default build and one of other widths are legal. -/
theorem witness_FieldMasksPartitionTheCode :
    Params.default.legal = true ∧ otherBuild.legal = true ∧ Field.dir ≠ Field.size := by decide

theorem witness_DirectionCodes :
    Params.default.legal = true ∧ otherBuild.legal = true ∧ Direction.read ≠ Direction.readWrite ∧
      (Params.default.nrBits = 8 ∧ Params.default.typeBits = 8 ∧ Params.default.sizeBits = 14 ∧
        Params.default.dirBits = 2) := by decide

theorem witness_DecSplitsEveryCode :
    (top 0x35).build.legal = true ∧ (top 0x35).inp.codeI = some 0xFFFFFFFF#32 ∧
      (top 0x35).inp.cmdI = some (BitVec.ofNat 6 (commandWord .layout .strict 5)) := by decide

theorem witness_DecOfEncGivesTheFields :
    (beyond 0x24).build.legal = true ∧ (beyond 0x24).inp.dirI = some 4 ∧ (beyond 0x24).inp.typeI = some 256 ∧
      (beyond 0x24).inp.nrI = some 256 ∧ (beyond 0x24).SizeIs .layout 24573 :=
  ⟨by decide, rfl, rfl, rfl, (beyond_sizes _).2⟩

theorem witness_EncOfDecGivesTheCode :
    (beyond 0x05).build.legal = true ∧ (beyond 0x05).inp.codeI = some 0#32 ∧ InRange (beyond 0x05).build 3 255 255 37 :=
  ⟨by decide, rfl, top_in_range.2.2.2⟩

/-- A full descriptor of 16 entries of 65528 bits, and an invalid one. -/
theorem witness_LsizeGivesTheLength :
    ((request 0x06 0 0 0 0 (List.replicate 16 r65528) 0 0).build.legal = true ∧
      (request 0x06 0 0 0 0 (List.replicate 16 r65528) 0 0).LayoutIs (List.replicate 16 r65528) ∧
      (List.replicate 16 r65528).length ≤ Params.default.lmax ∧ (∀ e ∈ List.replicate 16 r65528, EntryOk e) ∧
      Params.default.lmax = 16 ∧ layoutLength (List.replicate 16 r65528) = 131056 ∧
      (request 0x06 0 0 0 0 (List.replicate 16 r65528) 0 0).inp.cmdI =
        some (BitVec.ofNat 6 (commandWord .literal .wrap 6))) ∧
    (tooMany.build.legal = true ∧ tooMany.LayoutInvalid) :=
  ⟨⟨by decide, request_layoutIs _ _ _ _ _ _ _ _ (by decide), by decide, by simp [EntryOk, r65528], rfl, by decide,
    by decide⟩, by decide, invalid_layouts.2⟩

/-- An unsigned native and a raw big-endian entry of 8 bits. -/
theorem witness_KindAndOrderDoNotCount :
    (request 0x06 0 0 0 0 [u8] 0 0).build.legal = true ∧
      (request 0x06 0 0 0 0 [u8] 0 0).LayoutIs [u8] ∧ (request 0x06 0 0 0 0 [0x0008A#20] 0 0).LayoutIs [0x0008A#20] ∧
      [u8].length ≤ Params.default.lmax ∧ EntryOk u8 ∧ EntryOk 0x0008A#20 ∧
      [u8].map (fun e => e.toNat / 16) = [0x0008A#20].map (fun e => e.toNat / 16) :=
  ⟨by decide, request_layoutIs _ _ _ _ _ _ _ _ (by decide), request_layoutIs _ _ _ _ _ _ _ _ (by decide), by decide,
    by simp [EntryOk, u8], by simp [EntryOk], by decide⟩

theorem witness_LongLayoutWrapsOrFails :
    (beyond 0x24).build = Params.default ∧ (beyond 0x24).inp.dirI = some 4 ∧ (beyond 0x24).inp.typeI = some 256 ∧
      (beyond 0x24).inp.nrI = some 256 ∧ (beyond 0x24).SizeIs .layout 24573 ∧ 16383 < 24573 ∧
      Instr.enc ∈ [Instr.mkw, Instr.mkr, Instr.mkrw, Instr.enc] :=
  ⟨rfl, rfl, rfl, rfl, (beyond_sizes _).2, by decide, by simp⟩

/-- The last index of the ROM, and the first outside it. -/
theorem witness_ConstReadsTheRom :
    (top 0x07).build.legal = true ∧ (top 0x07).inp.idxI = some 14 ∧
      ([0x6B, codeSum (top 0x07).build (top 0x07).build.dirRead 0x6B 1 1,
        codeSum (top 0x07).build (top 0x07).build.dirWrite 0x6B 1 1,
        codeSum (top 0x07).build (top 0x07).build.dirRead 0x6B 2 1,
        codeSum (top 0x07).build (top 0x07).build.dirWrite 0x6B 2 1,
        codeSum (top 0x07).build (top 0x07).build.dirRead 0x6B 3 1,
        codeSum (top 0x07).build (top 0x07).build.dirWrite 0x6B 3 1,
        codeSum (top 0x07).build (top 0x07).build.dirRead 0x6B 4 4,
        codeSum (top 0x07).build (top 0x07).build.dirWrite 0x6B 4 4,
        0x01, 0x02, 0, 0x01, 0x02, 0x03] : List Nat)[(14 : Operand).toNat]? = some 3 ∧
      (top 0x07).inp.cmdI = some (BitVec.ofNat 6 (commandWord .literal .wrap 7)) ∧
      ((beyond 0x07).build.legal = true ∧ (beyond 0x07).inp.idxI = some 15 ∧ 15 ≤ (15 : Operand).toNat) :=
  ⟨by decide, rfl, rfl, by decide, by decide⟩

theorem witness_DefaultConstantTable :
    (top 0x07).build = Params.default ∧ (top 0x07).inp.idxI = some 14 ∧
      [0x0000006B#32, 0x80016B01#32, 0x40016B01#32, 0x80016B02#32, 0x40016B02#32, 0x80016B03#32, 0x40016B03#32,
        0x80046B04#32, 0x40046B04#32, 0x00000001#32, 0x00000002#32, 0x00000000#32, 0x00000001#32, 0x00000002#32,
        0x00000003#32][(14 : Operand).toNat]? = some 3#32 := ⟨rfl, rfl, rfl⟩

theorem witness_ReservedOpIsIllegal :
    State.reset.build.legal = true ∧ (State.reset.withFetchWord 8 0x38).inp.cmdI = some 0x38#6 ∧
      8 ≤ (0x38#6).toNat % 16 := by decide

theorem witness_DrivenRequestGetsLawfulResponse :
    (top 0x05).build.legal = true ∧ (top 0x05).presented = some (.dec .literal .wrap) ∧
      (top 0x05).Driven (.dec .literal .wrap) := by
  refine ⟨by decide, by decide, ?_⟩
  rintro q (rfl | rfl) <;> simp [InPorts.valueAt, top, request]

/-- The state at reset, which presents nothing; and a request whose code port is undriven. -/
theorem witness_UndrivenReadDrawsFreely :
    (State.reset.build.legal = true ∧ State.reset.presented = none) ∧
    ((State.reset.withFetchWord 8 5).presented = some (.dec .literal .wrap) ∧
      ¬ (State.reset.withFetchWord 8 5).Driven (.dec .literal .wrap)) :=
  ⟨⟨by decide, by decide⟩, by decide, fun h => h .code (.inr rfl) rfl⟩

theorem witness_NoStop : State.reset.build.legal = true := by decide

/-- A build, with every port driven by a DEC request. -/
def built (p : Params) : State := { top 0x05 with build := p }

/-- A sum of 31, DIRBITS = 1, and a CODEBITS of 31. -/
theorem witness_IllegalWidthsAreRefused :
    ¬ WidthsOk (built { Params.default with sizeBits := 13 }).build ∧
      ¬ WidthsOk (built { Params.default with sizeBits := 15, dirBits := 1 }).build ∧
      ¬ WidthsOk (built { Params.default with sizeBits := 13, codeBits := 31 }).build := by
  simp [WidthsOk, built, Params.default]

/-- READ | WRITE equal to READ, a code of `2^DIRBITS`, and the default widths with READ and WRITE exchanged. -/
theorem witness_IllegalDirectionCodesAreRefused :
    ¬ (CodesOk (built { otherBuild with dirWrite := 3 }).build ∧
        DefaultCodesOk (built { otherBuild with dirWrite := 3 }).build) ∧
      ¬ (CodesOk (built { otherBuild with dirRead := 8 }).build ∧
        DefaultCodesOk (built { otherBuild with dirRead := 8 }).build) ∧
      ¬ (CodesOk (built { Params.default with dirWrite := 2, dirRead := 1 }).build ∧
        DefaultCodesOk (built { Params.default with dirWrite := 2, dirRead := 1 }).build) := by
  simp [CodesOk, DefaultCodesOk, built, otherBuild, Params.default]

/-- Both sides hold of two builds, neither of a third. -/
theorem witness_LegalBuildsAreThoseOfTheSpec :
    (WidthsOk Params.default ∧ CodesOk Params.default ∧ DefaultCodesOk Params.default) ∧
      (WidthsOk otherBuild ∧ CodesOk otherBuild ∧ DefaultCodesOk otherBuild) ∧
      ¬ CodesOk { otherBuild with dirRead := 8 } := by
  simp [WidthsOk, CodesOk, DefaultCodesOk, otherBuild, Params.default]

/-- Two states that agree on `cmd_i` and `code_i` and on no other port. -/
theorem witness_OnlyTheReadPortsCount :
    (top 0x05).build.legal = true ∧ (top 0x05).presented = some (.dec .literal .wrap) ∧
      (top 0x05).Driven (.dec .literal .wrap) ∧
      ∀ q, readsPort (top 0x05).build (top 0x05).inp (.dec .literal .wrap) q →
        ({ InPorts.undriven 16 with cmdI := some 0x05, codeI := some 0xFFFFFFFF#32 } : InPorts).valueAt q =
          (top 0x05).inp.valueAt q := by
  refine ⟨by decide, by decide, witness_DrivenRequestGetsLawfulResponse.2.2, ?_⟩
  rintro q (rfl | rfl) <;> rfl

theorem top_inv (w : CmdWord) : (top w).Inv :=
  ⟨by show Params.default.legal = true; decide, rfl, by simp [OutPorts.Fits, top, request, OutPorts.zero, Params.default]⟩

theorem witness_EveryStepKeepsInv : (top 0x05).Inv ∧ ∃ t, step (top 0x05) = .next t := ⟨top_inv _, _, rfl⟩

theorem witness_StepKeepsBuildAndInputs :
    (∃ t, step (top 0x05) = .next t ∧ t.draws = (top 0x05).draws) ∧
      ∃ t, step State.reset = .next t ∧ t.draws = State.reset.draws + 1 := ⟨⟨_, rfl, rfl⟩, _, rfl, rfl⟩

theorem witness_RepeatedRequestRepeatsResponse :
    (top 0x05).build.legal = true ∧ (top 0x05).presented = some (.dec .literal .wrap) ∧
      (top 0x05).Driven (.dec .literal .wrap) := witness_DrivenRequestGetsLawfulResponse

/-- Two requests, the second of them an error. -/
theorem witness_EachRequestIsServedAlone :
    (top 0x05).build.legal = true ∧ (beyond 0x00).build = (top 0x05).build ∧
      ∀ r ∈ [(top 0x05).inp, (top 0x3F).inp], ∃ i, ((beyond 0x00).present r).presented = some i ∧
        ((beyond 0x00).present r).Driven i := by
  refine ⟨by decide, rfl, ?_⟩
  intro r hr
  simp only [List.mem_cons, List.not_mem_nil, or_false] at hr
  rcases hr with rfl | rfl
  · refine ⟨.dec .literal .wrap, by decide, ?_⟩
    rintro q (rfl | rfl) <;> simp [InPorts.valueAt, top, request]
  · refine ⟨.reserved .layout .strict 15#4, by decide, ?_⟩
    rintro q (rfl | h)
    · simp [InPorts.valueAt, top, request]
    · exact absurd h id

theorem witness_AssembledLineIsServed :
    (top 0).build.legal = true ∧
      ∃ inp, assemble (top 0).build ⟨true, .mkn (.chr 'k') (.dec 1)⟩ = .ok inp := ⟨by decide, _, rfl⟩

/-- The index -1, and the first index outside the ROM. -/
theorem witness_IntegersReachThePortsAsLowBits :
    (top 0x07).build.legal = true ∧ (15 : Int) ≤ (-1) % 2 ^ 32 ∧ (15 : Int) ≤ 15 % 2 ^ 32 := by decide

/-- As many entries as LMAX, the widest that 16 bits say. -/
theorem full_layout_fits : LayoutFits Params.default (List.replicate 16 ⟨.raw, 65535, some .big⟩) :=
  ⟨by decide, by decide, fun e he => by rw [List.eq_of_mem_replicate he]; decide⟩

theorem witness_AssembledConstructorLines :
    (AsmBody.mkrw, 3) ∈ [(AsmBody.mkw, 1), (AsmBody.mkr, 2), (AsmBody.mkrw, 3)] ∧
      LayoutFits Params.default (List.replicate 16 ⟨.raw, 65535, some .big⟩) := ⟨by simp, full_layout_fits⟩

theorem witness_AssembledEncLines :
    LayoutFits Params.default [⟨.unsigned, 12, none⟩] ∧
      LayoutFits Params.default (List.replicate 16 ⟨.raw, 65535, some .big⟩) :=
  ⟨by simp [LayoutFits, Params.default], full_layout_fits⟩

theorem witness_AssembledUnpackingLines :
    LayoutFits Params.default (List.replicate 16 ⟨.raw, 65535, some .big⟩) ∧ (8 ≤ 8 ∧ 8 < 16) ∧ (8 ≤ 15 ∧ 15 < 16) :=
  ⟨full_layout_fits, by decide⟩

/-- The OPs beside the reserved ones, and one entry more than LMAX. -/
theorem witness_AssemblerRefusals :
    (7 < 8 ∨ 16 ≤ 7) ∧ (16 < 8 ∨ 16 ≤ 16) ∧
      Params.default.lmax < (List.replicate 17 (⟨.unsigned, 8, none⟩ : AsmEntry)).length ∧
      AsmBody.mkrw ∈ [AsmBody.mkw, AsmBody.mkr, AsmBody.mkrw] := ⟨by decide, by decide, by decide, by simp⟩

/-- A full layout of the widest entries. -/
theorem witness_AssembledLsizeAddsItsWidths :
    (top 0).build.legal = true ∧ (List.replicate 16 (⟨.raw, 65528, some .big⟩ : AsmEntry)).length ≤ (top 0).build.lmax ∧
      (List.replicate 16 (⟨.raw, 65528, some .big⟩ : AsmEntry)).length < 256 ∧
      ∀ e ∈ List.replicate 16 (⟨.raw, 65528, some .big⟩ : AsmEntry), e.width < 65536 ∧ e.width % 8 = 0 := by
  refine ⟨by decide, by decide, by decide, fun e he => ?_⟩
  rw [List.eq_of_mem_replicate he]
  decide

end Sys2Proof.Tests
end

section
/-! PROOFS. 00_scope.md: which parameter sets are legal (R10, R11), what an illegal one gets, and what a caller's
integers become on the operand ports (R12). -/

namespace Sys2Proof.Machine

/-! ## Legal parameter sets -/

/-- The width check is the conditions of 00_scope.md R10. -/
theorem widthsLegal_iff (p : Params) : p.widthsLegal = true ↔ WidthsOk p := by
  simp only [Params.widthsLegal, WidthsOk, Bool.and_eq_true, decide_eq_true_eq, and_assoc]

/-- The check of the direction codes is the constraints of 00_scope.md R11: a list of four without duplicates is six
inequations. -/
theorem codesLegal_iff (p : Params) : p.codesLegal = true ↔ CodesOk p := by
  simp only [Params.codesLegal, CodesOk, Params.dirRw, Bool.and_eq_true, decide_eq_true_eq, List.nodup_cons,
    List.mem_cons, List.not_mem_nil, List.all_cons, List.all_nil, List.nodup_nil, not_or, not_false_eq_true, or_false,
    and_true, and_assoc, ne_eq]

/-- The check of the source's codes at the source's widths is an implication (log 8). -/
theorem defaultCodes_iff (p : Params) : (!p.widthsDefault || p.codesDefault) = true ↔ DefaultCodesOk p := by
  simp only [Params.widthsDefault, Params.codesDefault, DefaultCodesOk, imp_iff_not_or, Bool.or_eq_true,
    Bool.not_eq_true', ← Bool.not_eq_true, Bool.and_eq_true, decide_eq_true_eq, and_assoc]

/-- Legality, said as the spec says it. -/
theorem legal_iff (p : Params) : p.legal = true ↔ WidthsOk p ∧ CodesOk p ∧ DefaultCodesOk p := by
  rw [Params.legal, Bool.and_eq_true, Bool.and_eq_true, widthsLegal_iff, codesLegal_iff, defaultCodes_iff, and_assoc]

/-- The four codes of a legal build are different (00_scope.md R11): their list has no duplicates, and it names every
Direction. -/
theorem dirCode_injective {p : Params} (h : p.legal = true) : Function.Injective p.dirCode := by
  obtain ⟨hnodup, -⟩ := legal_codes h
  have hmap : ([Direction.none, .write, .read, .readWrite].map p.dirCode).Nodup := hnodup
  have hmem (a : Direction) : a ∈ [Direction.none, .write, .read, .readWrite] := by cases a <;> simp
  exact fun a b hab => List.inj_on_of_nodup_map hmap (hmem a) (hmem b) hab

/-- Every code of a legal build is a value of the Direction field (00_scope.md R11). -/
theorem dirCode_lt {p : Params} (h : p.legal = true) (a : Direction) : p.dirCode a < 2 ^ p.dirBits := by
  obtain ⟨-, hnone, hwrite, hread, hrw⟩ := legal_codes h
  cases a with
  | none => exact hnone
  | write => exact hwrite
  | read => exact hread
  | readWrite => exact hrw

/-- An illegal build is refused whatever is asked of it (00_scope.md R10; log 9). -/
theorem refused_of_not_legal {s : State} (h : ¬ s.build.legal = true) :
    step s = .refused .illegalParameters ∧ ∀ i : Instr, exec i s = .refused .illegalParameters :=
  ⟨step_eq_answer s ▸ answer_illegal _ h, fun i => exec_eq_answer i s ▸ answer_illegal _ h⟩

/-! ## The fields of a CommandCode that was packed -/

/-- A sum of digits, one digit for each field, the highest first. -/
theorem codeSum_eq_digits (p : Params) (d t n v : Nat) :
    codeSum p d t n v =
      ((d % 2 ^ p.dirBits * 2 ^ p.sizeBits + v % 2 ^ p.sizeBits) * 2 ^ p.typeBits + t % 2 ^ p.typeBits) * 2 ^ p.nrBits
        + n % 2 ^ p.nrBits := by
  rw [codeSum]
  ring

theorem digits_div (a x b : Nat) : (a * 2 ^ b + x % 2 ^ b) / 2 ^ b = a := by
  have hx : x % 2 ^ b < 2 ^ b := Nat.mod_lt _ (by positivity)
  rw [Nat.add_comm, Nat.add_mul_div_right _ _ (by positivity), Nat.div_eq_of_lt hx, Nat.zero_add]

theorem digits_mod (a x b : Nat) : (a * 2 ^ b + x % 2 ^ b) % 2 ^ b = x % 2 ^ b := by
  rw [Nat.add_comm, Nat.add_mul_mod_self_right, Nat.mod_mod]

theorem fieldOf_nr_codeSum (p : Params) (d t n v : Nat) : fieldOf p .nr (codeSum p d t n v) = n % 2 ^ p.nrBits := by
  rw [codeSum_eq_digits, fieldOf, Params.shift, Params.bits, pow_zero, Nat.div_one, digits_mod]

theorem fieldOf_typ_codeSum (p : Params) (d t n v : Nat) : fieldOf p .typ (codeSum p d t n v) = t % 2 ^ p.typeBits := by
  rw [codeSum_eq_digits, fieldOf, Params.shift, Params.bits, digits_div, digits_mod]

theorem fieldOf_size_codeSum (p : Params) (d t n v : Nat) :
    fieldOf p .size (codeSum p d t n v) = v % 2 ^ p.sizeBits := by
  rw [codeSum_eq_digits, fieldOf, Params.shift, Params.bits, pow_add, ← Nat.div_div_eq_div_mul, digits_div, digits_div,
    digits_mod]

theorem fieldOf_dir_codeSum (p : Params) (d t n v : Nat) : fieldOf p .dir (codeSum p d t n v) = d % 2 ^ p.dirBits := by
  rw [codeSum_eq_digits, fieldOf, Params.shift, Params.bits, pow_add, pow_add, ← Nat.div_div_eq_div_mul,
    ← Nat.div_div_eq_div_mul, digits_div, digits_div, digits_div, Nat.mod_mod]

/-- No bit of a packed code is lost on the 32 wires of `code_o`. -/
theorem encodeSuccess_codeO_toNat {p : Params} (h : p.legal = true) (rng : BitVec 4) (d t n v : Nat) :
    (encodeSuccess rng (codeSum p d t n v)).codeO.toNat = codeSum p d t n v :=
  Nat.mod_eq_of_lt (codeSum_lt h d t n v)

/-! ## ENC and CONST -/

/-- ENC with its operands driven, where no strict check fails (40_encode.md R102, R104). -/
theorem exec_enc_success {s : State} {l : SizeSource} {policy : RangePolicy} {d t n v : Nat}
    (hl : s.build.legal = true) (h : s.EncodeOperands (.enc l policy) d t n v)
    (hr : policy = .wrap ∨ InRange s.build d t n v) :
    exec (.enc l policy) s = .next (s.showResponse
      (encodeSuccess (BitVec.ofNat 4 (maskSum s.build d t n v)) (codeSum s.build d t n v))) := by
  obtain ⟨⟨x, hx, rfl⟩, ⟨y, hy, rfl⟩, ⟨w, hw, rfl⟩, hsize⟩ := h
  have hrespond : respondInstr s.build s.inp (.enc l policy) =
      some (finish s.build policy w.toNat x.toNat y.toNat v true) := by
    simp only [respondInstr, respondEnc, withSized, hw, hx, hy, sizeOperand_of_sizeIs s l v hsize, finishSized]
  rw [exec_eq_answer, hrespond, answer_some _ hl, finish_success _ _ _ _ _ _ _ (rangeMask_checked ..) hr]

/-- CONST of an index that names no entry of the ROM (43_constants.md R160, 60_exceptions.md R184). -/
theorem exec_const_bad_index {s : State} {i : Operand} (l : SizeSource) (policy : RangePolicy)
    (hl : s.build.legal = true) (hi : s.inp.idxI = some i) (h : 15 ≤ i.toNat) :
    exec (.const l policy) s = .next (s.showResponse (errorOut 4#3 0#4)) := by
  have hnone : romNames[i.toNat]? = none := List.getElem?_eq_none h
  have hrespond : respondInstr s.build s.inp (.const l policy) = some (raiseError .badConstIndex) := by
    simp only [respondInstr, respondConst, hi, hnone]
  rw [exec_eq_answer, hrespond, answer_some _ hl]
  rfl

/-! ## A caller's integers -/

/-- The natural number on the port of a caller's integer. -/
theorem emod_toNat_eq_hostOperand (z : Int) : (z % 2 ^ 32).toNat = (hostOperand z).toNat := by
  rw [← hostOperand_toNat, Int.toNat_natCast]

/-- A field of at most 32 bits gets the integer modulo its width: the bits that a port drops are not its own. -/
theorem hostOperand_mod_field (z : Int) {w : Nat} (hw : w ≤ 32) :
    (((hostOperand z).toNat % 2 ^ w : Nat) : Int) = z % 2 ^ w := by
  rw [Int.natCast_mod, hostOperand_toNat, Nat.cast_pow, Nat.cast_ofNat]
  exact Int.emod_emod_of_dvd z (pow_dvd_pow 2 hw)

/-- The five numeric operand ports, by name (00_scope.md R12). -/
theorem withIntegers_valueAt (inp : InPorts) (d t n z i : Int) :
    (inp.withIntegers d t n z i).valueAt .dir = some (hostOperand d).toNat ∧
      (inp.withIntegers d t n z i).valueAt .typ = some (hostOperand t).toNat ∧
      (inp.withIntegers d t n z i).valueAt .nr = some (hostOperand n).toNat ∧
      (inp.withIntegers d t n z i).valueAt .size = some (hostOperand z).toNat ∧
      (inp.withIntegers d t n z i).valueAt .idx = some (hostOperand i).toNat :=
  ⟨rfl, rfl, rfl, rfl, rfl⟩

/-- The operands of a literal ENC of a caller's integers. -/
theorem encodeOperands_withIntegers (s : State) (inp : InPorts) (policy : RangePolicy) (d t n z i : Int) :
    (s.present (inp.withIntegers d t n z i)).EncodeOperands (.enc .literal policy) (hostOperand d).toNat
      (hostOperand t).toNat (hostOperand n).toNat (hostOperand z).toNat :=
  ⟨⟨_, rfl, rfl⟩, ⟨_, rfl, rfl⟩, ⟨_, rfl, rfl⟩, ⟨_, rfl, rfl⟩⟩

/-! ## The obligations -/

/-- Settles O18: the code of each Direction, by `legal_iff`. -/
theorem directionCodes : Obligations.DirectionCodes := by
  intro p h
  refine ⟨fun a b hab => (dirCode_injective h).ne hab, dirCode_lt h, rfl, fun hn ht hs hd => ?_⟩
  obtain ⟨-, -, hdefault⟩ := (legal_iff p).mp h
  obtain ⟨hnone, hwrite, hread⟩ := hdefault ⟨hn, ht, hs, hd⟩
  refine ⟨hnone, hwrite, hread, ?_⟩
  show p.dirRead ||| p.dirWrite = 3
  rw [hread, hwrite]
  rfl

/-- Settles O31: widths outside R10 make the build illegal. -/
theorem illegalWidthsAreRefused : Obligations.IllegalWidthsAreRefused := by
  intro s h
  refine refused_of_not_legal fun hl => ?_
  obtain ⟨hwidths, -, -⟩ := (legal_iff s.build).mp hl
  exact h hwidths

/-- Settles O40: codes outside R11, or others than the source's at its widths, make the build illegal. -/
theorem illegalDirectionCodesAreRefused : Obligations.IllegalDirectionCodesAreRefused := by
  intro s h
  refine refused_of_not_legal fun hl => ?_
  obtain ⟨-, hcodes⟩ := (legal_iff s.build).mp hl
  exact h hcodes

/-- Settles O41: the three checks of `Params.legal`, each by its own lemma. -/
theorem legalBuildsAreThoseOfTheSpec : Obligations.LegalBuildsAreThoseOfTheSpec := legal_iff

/-- Settles O42: the ports carry `hostOperand` of each integer, and ENC and CONST see those numbers alone. -/
theorem integersReachThePortsAsLowBits : Obligations.IntegersReachThePortsAsLowBits := by
  intro l policy s inp d t n z i hl
  obtain ⟨hnr, htyp, hsize, hdir, hsum, -⟩ := legal_widths hl
  have hl' : (s.present (inp.withIntegers d t n z i)).build.legal = true := hl
  refine ⟨?_, ⟨_, exec_enc_success hl' (encodeOperands_withIntegers s inp .wrap d t n z i) (.inl rfl), rfl, ?_, ?_⟩, ?_⟩
  · obtain ⟨hd, ht, hn, hz, hi⟩ := withIntegers_valueAt inp d t n z i
    simp [hd, ht, hn, hz, hi, hostOperand_toNat]
  · simp only [emod_toNat_eq_hostOperand]
    rfl
  · rw [showResponse_out, encodeSuccess_codeO_toNat hl', present_build, fieldOf_dir_codeSum, fieldOf_typ_codeSum,
      fieldOf_nr_codeSum, fieldOf_size_codeSum]
    exact ⟨hostOperand_mod_field d (by omega), hostOperand_mod_field t (by omega), hostOperand_mod_field n (by omega),
      hostOperand_mod_field z (by omega)⟩
  · intro h
    have hi : 15 ≤ (hostOperand i).toNat := by
      rw [← hostOperand_toNat] at h
      exact_mod_cast h
    exact exec_const_bad_index l policy hl' rfl hi

end Sys2Proof.Machine
end

section
/-! PROOFS. 10_state.md: the state invariant (R21, R24, R32), what a step leaves alone (R28), and which input ports the
response depends on (R22, R23, R26). -/

namespace Sys2Proof.Machine

/-! ## Every response is within the widths of the ports -/

/-- A number reduced to `w` bits is still below `2 ^ w` on the 32 bits a field output is held in (log 7). -/
theorem ofNat_mod_two_pow_lt (x w : Nat) : (BitVec.ofNat 32 (x % 2 ^ w)).toNat < 2 ^ w :=
  calc (BitVec.ofNat 32 (x % 2 ^ w)).toNat = x % 2 ^ w % 2 ^ 32 := BitVec.toNat_ofNat _ _
    _ ≤ x % 2 ^ w := Nat.mod_le _ _
    _ < 2 ^ w := Nat.mod_lt x (Nat.two_pow_pos w)

/-- Field outputs that an operation does not drive are 0 and fit in every build (10_state.md R25). -/
theorem fits_of_fields_zero {p : Params} {o : OutPorts} (hd : o.dirO = 0#32) (hz : o.sizeO = 0#32)
    (ht : o.typeO = 0#32) (hn : o.nrO = 0#32) : o.Fits p := by
  simp [OutPorts.Fits, hd, hz, ht, hn]

theorem raiseError_fits (p : Params) (e : CodecError) : (raiseError e).Fits p := fits_of_fields_zero rfl rfl rfl rfl

theorem finish_fits (p : Params) (policy : RangePolicy) (d t n sz : Nat) (check : Bool) :
    (finish p policy d t n sz check).Fits p := by
  dsimp only [finish]
  split
  · exact raiseError_fits p _
  · exact fits_of_fields_zero rfl rfl rfl rfl

theorem finishSized_fits (p : Params) (policy : RangePolicy) (d t n : Nat) (size : Except CodecError Nat)
    (check : Bool) : (finishSized p policy d t n size check).Fits p := by
  cases size with
  | error e => exact raiseError_fits p e
  | ok sz => exact finish_fits p policy d t n sz check

/-- Everything `withSized` can do when it answers: it hands the three operands on. -/
theorem withSized_eq_some {p : Params} {l : SizeSource} {inp : InPorts} {o : OutPorts}
    {f : Nat → Nat → Except CodecError Nat → OutPorts} (h : withSized p l inp f = some o) :
    ∃ t n sz, inp.typeI = some t ∧ inp.nrI = some n ∧ sizeOperand p l inp = some sz ∧ o = f t.toNat n.toNat sz := by
  unfold withSized at h
  split at h
  · next t n sz ht hn hsz => exact ⟨t, n, sz, ht, hn, hsz, (Option.some.inj h).symm⟩
  · cases h

/-- An operation that ends in `finishSized` answers within the widths of the ports. -/
theorem withSized_fits {p : Params} {l : SizeSource} {inp : InPorts} {policy : RangePolicy} {d : Nat} {check : Bool}
    {o : OutPorts} (h : withSized p l inp (fun t n sz => finishSized p policy d t n sz check) = some o) : o.Fits p := by
  obtain ⟨t, n, sz, -, -, -, rfl⟩ := withSized_eq_some h
  exact finishSized_fits p policy d t.toNat n.toNat sz check

/-- DEC drives each field output with a field, which is as wide as its port (42_decode.md R150). -/
theorem respondDec_fits {p : Params} (l : SizeSource) (policy : RangePolicy) {inp : InPorts} {o : OutPorts}
    (h : respondDec p l policy inp = some o) : o.Fits p := by
  unfold respondDec at h
  split at h
  · cases h
  · obtain rfl := Option.some.inj h
    exact ⟨ofNat_mod_two_pow_lt _ _, ofNat_mod_two_pow_lt _ _, ofNat_mod_two_pow_lt _ _, ofNat_mod_two_pow_lt _ _⟩

/-- No operation answers with a field wider than its port (10_state.md R24). DEC alone drives the field outputs. -/
theorem respondInstr_fits {p : Params} {inp : InPorts} {i : Instr} {o : OutPorts}
    (h : respondInstr p inp i = some o) : o.Fits p := by
  cases i with
  | mkn l policy =>
    simp only [respondInstr, respondMkn] at h
    split at h
    · obtain rfl := Option.some.inj h
      exact finish_fits p policy _ _ _ _ _
    · cases h
  | mkw l policy => exact withSized_fits h
  | mkr l policy => exact withSized_fits h
  | mkrw l policy => exact withSized_fits h
  | enc l policy =>
    simp only [respondInstr, respondEnc] at h
    split at h
    · cases h
    · exact withSized_fits h
  | dec l policy => exact respondDec_fits l policy h
  | lsize l policy =>
    simp only [respondInstr, respondLsize] at h
    split at h
    · cases h
    · obtain rfl := Option.some.inj h
      exact raiseError_fits p _
    · obtain rfl := Option.some.inj h
      exact fits_of_fields_zero rfl rfl rfl rfl
  | const l policy =>
    simp only [respondInstr, respondConst] at h
    split at h
    · cases h
    · split at h
      · obtain rfl := Option.some.inj h
        exact raiseError_fits p _
      · obtain rfl := Option.some.inj h
        exact fits_of_fields_zero rfl rfl rfl rfl
  | reserved l policy op =>
    obtain rfl := Option.some.inj h
    exact raiseError_fits p .illegalOp

/-- The block's function never answers with a field wider than its port. -/
theorem respond_fits {p : Params} {inp : InPorts} {o : OutPorts} (h : respond p inp = some o) : o.Fits p := by
  unfold respond at h
  split at h
  · cases h
  · exact respondInstr_fits h

/-! ## The response as a function of the ports that are read -/

/-- Two settings of the input ports agree on a set of ports. -/
def InPorts.AgreesOn (inp' inp : InPorts) (reads : InPort → Prop) : Prop :=
  ∀ q, reads q → inp'.valueAt q = inp.valueAt q

/-- Every port of a set is driven; `State.Driven` is this of the ports an instruction reads (`driven_iff`). -/
def InPorts.DrivenOn (inp : InPorts) (reads : InPort → Prop) : Prop := ∀ q, reads q → inp.valueAt q ≠ none

theorem driven_iff (s : State) (i : Instr) : s.Driven i ↔ s.inp.DrivenOn (readsPort s.build s.inp i) := Iff.rfl

/-- The natural on a port determines what stands on the port. -/
theorem port_toNat_injective {w : Nat} {a b : Port w} (h : a.map BitVec.toNat = b.map BitVec.toNat) : a = b :=
  Option.map_injective BitVec.toNat_injective h

/-- A port with a natural on it carries a value. -/
theorem port_driven {w : Nat} {a : Port w} (h : a.map BitVec.toNat ≠ none) : ∃ x, a = some x :=
  Option.ne_none_iff_exists'.mp fun hnone => h (by rw [hnone]; rfl)

/-- An entry port carries a value exactly when it is held and driven: a missing one counts as undriven (log 10). -/
theorem entryPort_eq_some_iff (ports : List (Port 20)) (j : Nat) (e : LayoutEntry) :
    ports[j]? = some (some e) ↔ ports[j]?.getD none = some e := by
  simp [Option.getD_eq_iff]

/-- Reading `k` entries depends on the first `k` entry ports alone. -/
theorem readEntries_congr {k : Nat} {ports' ports : List (Port 20)}
    (h : ∀ j < k, ports'[j]?.getD none = ports[j]?.getD none) : readEntries k ports' = readEntries k ports := by
  cases hr : readEntries k ports with
  | none =>
    obtain ⟨j, hj, hnone⟩ := (readEntries_eq_none_iff k ports).mp hr
    exact (readEntries_eq_none_iff k ports').mpr ⟨j, hj, (h j hj).trans hnone⟩
  | some es =>
    obtain ⟨hlen, hes⟩ := (readEntries_eq_some_iff k ports es).mp hr
    refine (readEntries_eq_some_iff k ports' es).mpr ⟨hlen, fun j hj => ?_⟩
    rw [entryPort_eq_some_iff, h j (hlen ▸ hj), ← entryPort_eq_some_iff]
    exact hes j hj

theorem readLayout_congr {p : Params} {inp' inp : InPorts} (h : inp'.AgreesOn inp (readsLayout p inp)) :
    readLayout p inp' = readLayout p inp := by
  have hN : inp'.layN = inp.layN := port_toNat_injective (h .layN trivial)
  cases hn : inp.layN with
  | none => simp only [readLayout, hN, hn]
  | some n =>
    have hE : readEntries (min n.toNat p.lmax) inp'.layE = readEntries (min n.toNat p.lmax) inp.layE := by
      refine readEntries_congr fun j hj => port_toNat_injective (h (.layE j) ⟨n.toNat, ?_, by omega, by omega⟩)
      simp [InPorts.valueAt, hn]
    simp only [readLayout, hN, hn, hE]

theorem sizeOperand_congr {p : Params} {l : SizeSource} {inp' inp : InPorts}
    (h : inp'.AgreesOn inp (readsSize p inp l)) : sizeOperand p l inp' = sizeOperand p l inp := by
  cases l with
  | literal =>
    have hz : inp'.sizeI = inp.sizeI := port_toNat_injective (h .size rfl)
    simp only [sizeOperand, hz]
  | layout => exact readLayout_congr h

theorem withSized_congr {p : Params} {l : SizeSource} {inp' inp : InPorts}
    (h : inp'.AgreesOn inp fun q => q = .typ ∨ q = .nr ∨ readsSize p inp l q)
    (f : Nat → Nat → Except CodecError Nat → OutPorts) : withSized p l inp' f = withSized p l inp f := by
  have ht : inp'.typeI = inp.typeI := port_toNat_injective (h .typ (.inl rfl))
  have hn : inp'.nrI = inp.nrI := port_toNat_injective (h .nr (.inr (.inl rfl)))
  have hz : sizeOperand p l inp' = sizeOperand p l inp := sizeOperand_congr fun q hq => h q (.inr (.inr hq))
  simp only [withSized, ht, hn, hz]

/-- The response of an operation depends on the ports of its row in 30_encoding.md R76 alone (10_state.md R23). -/
theorem respondInstr_congr {p : Params} {inp' inp : InPorts} {i : Instr}
    (h : inp'.AgreesOn inp (readsPort p inp i)) : respondInstr p inp' i = respondInstr p inp i := by
  cases i with
  | mkn l policy =>
    have ht : inp'.typeI = inp.typeI := port_toNat_injective (h .typ (.inr (.inl rfl)))
    have hn : inp'.nrI = inp.nrI := port_toNat_injective (h .nr (.inr (.inr rfl)))
    simp only [respondInstr, respondMkn, ht, hn]
  | mkw l policy => simp only [respondInstr, respondMkw, withSized_congr fun q hq => h q (.inr hq)]
  | mkr l policy => simp only [respondInstr, respondMkr, withSized_congr fun q hq => h q (.inr hq)]
  | mkrw l policy => simp only [respondInstr, respondMkrw, withSized_congr fun q hq => h q (.inr hq)]
  | enc l policy =>
    have hd : inp'.dirI = inp.dirI := port_toNat_injective (h .dir (.inr (.inl rfl)))
    simp only [respondInstr, respondEnc, hd, withSized_congr fun q hq => h q (.inr (.inr hq))]
  | dec l policy =>
    have hc : inp'.codeI = inp.codeI := port_toNat_injective (h .code (.inr rfl))
    simp only [respondInstr, respondDec, hc]
  | lsize l policy =>
    have hlay : readLayout p inp' = readLayout p inp := readLayout_congr fun q hq => h q (.inr hq)
    simp only [respondInstr, respondLsize, hlay]
  | const l policy =>
    have hi : inp'.idxI = inp.idxI := port_toNat_injective (h .idx (.inr rfl))
    simp only [respondInstr, respondConst, hi]
  | reserved l policy op => rfl

/-! ## A driven request gets a response -/

theorem readLayout_of_driven {p : Params} {inp : InPorts} (h : inp.DrivenOn (readsLayout p inp)) :
    ∃ sz, readLayout p inp = some sz := by
  obtain ⟨n, hn⟩ := port_driven (h .layN trivial)
  cases hr : readEntries (min n.toNat p.lmax) inp.layE with
  | none =>
    obtain ⟨j, hj, hnone⟩ := (readEntries_eq_none_iff _ _).mp hr
    obtain ⟨e, he⟩ := port_driven (h (.layE j) ⟨n.toNat, by simp [InPorts.valueAt, hn], by omega, by omega⟩)
    rw [hnone] at he
    cases he
  | some es => exact ⟨layoutBytes p n.toNat es, by simp only [readLayout, hn, hr]⟩

theorem sizeOperand_of_driven {p : Params} {l : SizeSource} {inp : InPorts} (h : inp.DrivenOn (readsSize p inp l)) :
    ∃ sz, sizeOperand p l inp = some sz := by
  cases l with
  | literal =>
    obtain ⟨z, hz⟩ := port_driven (h .size rfl)
    exact ⟨.ok z.toNat, by simp only [sizeOperand, hz]⟩
  | layout => exact readLayout_of_driven h

theorem withSized_of_driven {p : Params} {l : SizeSource} {inp : InPorts}
    (h : inp.DrivenOn fun q => q = .typ ∨ q = .nr ∨ readsSize p inp l q)
    (f : Nat → Nat → Except CodecError Nat → OutPorts) : ∃ o, withSized p l inp f = some o := by
  obtain ⟨t, ht⟩ := port_driven (h .typ (.inl rfl))
  obtain ⟨n, hn⟩ := port_driven (h .nr (.inr (.inl rfl)))
  obtain ⟨sz, hsz⟩ := sizeOperand_of_driven fun q hq => h q (.inr (.inr hq))
  exact ⟨f t.toNat n.toNat sz, by simp only [withSized, ht, hn, hsz]⟩

/-- An operation whose read ports are all driven has a response and no free draw (70_reset_and_hazards.md R217). -/
theorem respondInstr_of_driven {p : Params} {inp : InPorts} {i : Instr} (h : inp.DrivenOn (readsPort p inp i)) :
    ∃ o, respondInstr p inp i = some o := by
  cases i with
  | mkn l policy =>
    obtain ⟨t, ht⟩ := port_driven (h .typ (.inr (.inl rfl)))
    obtain ⟨n, hn⟩ := port_driven (h .nr (.inr (.inr rfl)))
    simp [respondInstr, respondMkn, ht, hn]
  | mkw l policy => simpa only [respondInstr, respondMkw] using withSized_of_driven (fun q hq => h q (.inr hq)) _
  | mkr l policy => simpa only [respondInstr, respondMkr] using withSized_of_driven (fun q hq => h q (.inr hq)) _
  | mkrw l policy => simpa only [respondInstr, respondMkrw] using withSized_of_driven (fun q hq => h q (.inr hq)) _
  | enc l policy =>
    obtain ⟨d, hd⟩ := port_driven (h .dir (.inr (.inl rfl)))
    simp only [respondInstr, respondEnc, hd]
    exact withSized_of_driven (fun q hq => h q (.inr (.inr hq))) _
  | dec l policy =>
    obtain ⟨c, hc⟩ := port_driven (h .code (.inr rfl))
    simp [respondInstr, respondDec, hc]
  | lsize l policy =>
    obtain ⟨sz, hsz⟩ := readLayout_of_driven fun q hq => h q (.inr hq)
    cases sz <;> simp [respondInstr, respondLsize, hsz]
  | const l policy =>
    obtain ⟨i, hi⟩ := port_driven (h .idx (.inr rfl))
    simp only [respondInstr, respondConst, hi]
    split <;> exact ⟨_, rfl⟩
  | reserved l policy op => exact ⟨_, rfl⟩

/-- What `cmd_i` presents depends on `cmd_i` alone (10_state.md R27). -/
theorem presented_congr {s' s : State} (h : s'.inp.valueAt .cmd = s.inp.valueAt .cmd) :
    s'.presented = s.presented := by
  have hw : s'.inp.cmdI = s.inp.cmdI := port_toNat_injective h
  simp only [State.presented, hw]

/-- A step shows the response of the presented instruction and changes nothing else. -/
theorem step_of_response {s : State} {i : Instr} {o : OutPorts} (hl : s.build.legal = true)
    (hp : s.presented = some i) (h : respondInstr s.build s.inp i = some o) : step s = .next { s with out := o } := by
  calc step s = exec i s := by simp only [step, hp]
    _ = s.answer (some o) := by rw [exec_eq_answer, h]
    _ = .next { s with out := o } := answer_some o hl

/-! ## The obligations -/

/-- Settles O33: a step shows a response or a free draw, and both fit their ports. -/
theorem everyStepKeepsInv : Obligations.EveryStepKeepsInv := by
  intro s t hs h
  obtain ⟨-, ⟨o, ho, rfl⟩ | ⟨-, rfl⟩⟩ := step_eq_next h
  · exact ⟨hs.legal, hs.ports, respond_fits ho⟩
  · exact ⟨hs.legal, hs.ports, free_fits s.build s.draws⟩

/-- Settles O32: both states get the one response that `respondInstr_congr` gives them. -/
theorem onlyTheReadPortsCount : Obligations.OnlyTheReadPortsCount := by
  intro s s' i hl hbuild hp hdriven hagree
  obtain ⟨o, ho⟩ := respondInstr_of_driven ((driven_iff s i).mp hdriven)
  have hp' : s'.presented = some i := (presented_congr (hagree .cmd (.inl rfl))).trans hp
  have ho' : respondInstr s'.build s'.inp i = some o := by rw [hbuild, respondInstr_congr hagree, ho]
  exact ⟨o, step_of_response hl hp ho, step_of_response (hbuild ▸ hl) hp' ho'⟩

/-- Settles O35: a step writes the outputs, and the count of draws where it draws them freely. -/
theorem stepKeepsBuildAndInputs : Obligations.StepKeepsBuildAndInputs := by
  intro s t h
  obtain ⟨-, ⟨o, -, rfl⟩ | ⟨-, rfl⟩⟩ := step_eq_next h
  · exact ⟨rfl, rfl, fun _ => rfl, .inl rfl⟩
  · exact ⟨rfl, rfl, fun _ => rfl, .inr ⟨rfl, rfl⟩⟩

/-- Settles O34: the default build is legal, and the outputs at reset are a free draw. -/
theorem resetSatisfiesInv : Obligations.ResetSatisfiesInv where
  legal := by
    rw [reset_build]
    decide
  ports := rfl
  fits := free_fits Params.default 0

end Sys2Proof.Machine
end


section
/-! PROOFS. 20_memory.md: requests served one after another (R47). -/

namespace Sys2Proof.Machine

/-! ## Serving a list of requests is answering each by the block's function -/

@[simp] theorem serve_nil (s : State) : s.serve [] = [] := rfl

/-- A step from ports the block's function answers shows that answer (10_state.md R26). -/
theorem step_of_respond {s : State} {o : OutPorts} (hl : s.build.legal = true)
    (h : respond s.build s.inp = some o) : step s = .next (s.showResponse o) := by
  rw [step_eq_answer, h, answer_some o hl]

/-- The block's function answers a driven request. -/
theorem respond_of_driven {s : State} {i : Instr} (hp : s.presented = some i) (hd : s.Driven i) :
    ∃ o, respond s.build s.inp = some o := by
  obtain ⟨o, ho⟩ := respondInstr_of_driven ((driven_iff s i).mp hd)
  unfold State.presented at hp
  split at hp
  · cases hp
  · next w hw =>
    obtain rfl := Option.some.inj hp
    exact ⟨o, by simpa only [respond, hw] using ho⟩

/-- The first response of a list is the first request's, and the rest is served from the state that shows it. -/
theorem serve_cons {s : State} {r : InPorts} {o : OutPorts} (rs : List InPorts) (hl : s.build.legal = true)
    (h : respond s.build r = some o) : s.serve (r :: rs) = o :: ((s.present r).showResponse o).serve rs := by
  have hstep : step (s.present r) = .next ((s.present r).showResponse o) := step_of_respond hl h
  simp only [State.serve, hstep, showResponse_out]

/-- What a list of answerable requests is served depends on the build and the requests alone: each request before the
last leaves outputs and inputs behind, and none of them is read. -/
theorem serve_eq_filterMap_respond {s : State} {requests : List InPorts} (hl : s.build.legal = true)
    (h : ∀ r ∈ requests, (respond s.build r).isSome) : s.serve requests = requests.filterMap (respond s.build) := by
  induction requests generalizing s with
  | nil => rfl
  | cons r rs ih =>
    obtain ⟨hr, hrs⟩ := List.forall_mem_cons.mp h
    obtain ⟨o, ho⟩ := Option.isSome_iff_exists.mp hr
    have hrest : ((s.present r).showResponse o).serve rs = rs.filterMap (respond s.build) := ih hl hrs
    rw [serve_cons rs hl ho, hrest, List.filterMap_cons_some ho]

/-- A request served alone gets the answer of the block's function. -/
theorem serve_singleton {s : State} {r : InPorts} (hl : s.build.legal = true) (h : (respond s.build r).isSome) :
    s.serve [r] = (respond s.build r).toList := by
  obtain ⟨o, ho⟩ := Option.isSome_iff_exists.mp h
  rw [serve_cons [] hl ho, serve_nil, ho, Option.toList_some]

/-! ## The obligation -/

/-- Settles O37: in company and alone, a request gets what the block's function answers it, and every driven request is
answered. -/
theorem eachRequestIsServedAlone : Obligations.EachRequestIsServedAlone := by
  intro requests s alone hl hbuild hdriven
  have hanswered : ∀ r ∈ requests, (respond s.build r).isSome := fun r hr => by
    obtain ⟨i, hp, hd⟩ := hdriven r hr
    exact Option.isSome_iff_exists.mpr (respond_of_driven hp hd)
  have halone : ∀ r ∈ requests, alone.serve [r] = (respond s.build r).toList := fun r hr =>
    hbuild ▸ serve_singleton (hbuild ▸ hl) (hbuild ▸ hanswered r hr)
  have hserve : s.serve requests = requests.filterMap (respond s.build) := serve_eq_filterMap_respond hl hanswered
  constructor
  · calc s.serve requests = requests.filterMap (respond s.build) := hserve
      _ = requests.flatMap (fun r => (respond s.build r).toList) := List.filterMap_eq_flatMap_toList _ _
      _ = requests.flatMap (fun r => alone.serve [r]) := (List.flatMap_congr halone).symm
  · rw [hserve, List.filterMap_length_eq_length.mpr hanswered]

end Sys2Proof.Machine
end


section
/-! PROOFS. 30_encoding.md: command words and their decoder (R66, R67, R71, R79), the CommandCode format (R60, R62), and
the assembler (R77, R78). -/

namespace Sys2Proof.Machine

/-! ## Command words -/

/-- Decoding undoes encoding, for each constructor by its own lemma in Laws/PerInstr.lean. -/
theorem decodeEncode_statement (i : Instr) : Laws.DecodeEncode.Statement i := by
  cases i with
  | mkn l policy => exact Laws.DecodeEncode.mkn l policy
  | mkw l policy => exact Laws.DecodeEncode.mkw l policy
  | mkr l policy => exact Laws.DecodeEncode.mkr l policy
  | mkrw l policy => exact Laws.DecodeEncode.mkrw l policy
  | enc l policy => exact Laws.DecodeEncode.enc l policy
  | dec l policy => exact Laws.DecodeEncode.dec l policy
  | lsize l policy => exact Laws.DecodeEncode.lsize l policy
  | const l policy => exact Laws.DecodeEncode.const l policy
  | reserved l policy op => exact Laws.DecodeEncode.reserved l policy op

/-- Settles O2, by one lemma for each constructor. -/
theorem decodeOfEncode : Obligations.DecodeOfEncode := decodeEncode_statement

/-- The three fields of a command word, put together again, are the word (30_encoding.md R66). -/
theorem encodeWord_decode (w : CmdWord) : encodeWord (decodeL w) (decodeS w) (decodeOp w) = w := by
  revert w
  decide

/-- Settles O3: the OP field selects the constructor and is the one `encode` writes back (30_encoding.md R67); a word
that selects `reserved` has an OP of 8 or more (R71). -/
theorem encodeOfDecode : Obligations.EncodeOfDecode := by
  intro w
  have hw := encodeWord_decode w
  generalize hop : decodeOp w = op at hw
  unfold decode
  rw [hop]
  split
  case h_9 h0 h1 h2 h3 h4 h5 h6 h7 =>
    simp only [imp_false] at h0 h1 h2 h3 h4 h5 h6 h7
    have h8 : 8 ≤ op.toNat := by omega
    exact ⟨decide_eq_true h8, hw⟩
  all_goals
    next h =>
      have hval : BitVec.ofNat 4 op.toNat = op := by simp
      rw [h] at hval
      subst hval
      exact ⟨rfl, hw⟩

/-- Settles O4: each word by running `decode` on it. -/
theorem decodedWords : Obligations.DecodedWords := ⟨rfl, rfl, rfl, rfl, rfl, rfl, rfl, rfl, rfl, rfl⟩

/-- A word on `cmd_i` presents what it decodes to, and the step is the meaning of that (10_state.md R27). -/
theorem step_of_cmdI {s : State} {w : CmdWord} (h : s.inp.cmdI = some w) :
    s.presented = some (decode w) ∧ step s = exec (decode w) s := by
  have hp : s.presented = some (decode w) := by simp only [State.presented, h]
  exact ⟨hp, by simp only [step, hp]⟩

/-- Settles O1: the presented word alone selects the meaning. -/
theorem stepRunsPresentedInstruction : Obligations.StepRunsPresentedInstruction := by
  rintro s w i hw rfl -
  exact step_of_cmdI hw

/-- The table decoder reads one byte of a word: its low six bits where the others are 0, and nothing else (log 12). -/
theorem decodeTableWord_byte {w : Nat} (h : w < 256) :
    decodeTableWord 8 w = if w < 64 then some (decode (BitVec.ofNat 6 w)) else none := by
  have hbytes : bytesOf ((8 + 7) / 8) (w % 2 ^ 8) = [BitVec.ofNat 8 w] := by
    rw [Nat.mod_eq_of_lt (by omega)]
    rfl
  have hbyte : (BitVec.ofNat 8 w).toNat = w := Nat.mod_eq_of_lt h
  have hlow : (BitVec.ofNat 8 w).extractLsb' 0 6 = BitVec.ofNat 6 w := by
    apply BitVec.eq_of_toNat_eq
    rw [BitVec.extractLsb'_toNat, hbyte, Nat.shiftRight_zero, BitVec.toNat_ofNat]
  rw [decodeTableWord, hbytes, decodeBytes, hbyte, hlow]
  by_cases h64 : w < 64
  · rw [if_pos h64, if_pos h64]
  · rw [if_neg h64, if_neg h64]

/-- Settles O5: the byte is the word that `withFetchWord` drives on `cmd_i`. -/
theorem tableWordRuns : Obligations.TableWordRuns := by
  intro s w
  refine ⟨fun h => ⟨by rw [decodeTableWord_byte (by omega), if_pos h], ?_⟩, fun h h' => ?_⟩
  · have hcmd : (s.withFetchWord 8 w).inp.cmdI = some (BitVec.ofNat 6 w) := by
      rw [withFetchWord_cmdI, Nat.mod_eq_of_lt (by omega)]
    exact (step_of_cmdI hcmd).2
  · rw [decodeTableWord_byte h', if_neg (by omega)]

/-! ## The CommandCode format -/

/-- With the source's widths, the concatenation of 30_encoding.md R60 is the sum of the fields in their places. -/
theorem concat_toNat (dir : BitVec 2) (size : BitVec 14) (typ nr : BitVec 8) :
    (dir ++ size ++ typ ++ nr : BitVec 32).toNat =
      codeSum Params.default dir.toNat typ.toNat nr.toNat size.toNat := by
  have hd := dir.isLt
  have hz := size.isLt
  have ht := typ.isLt
  have hn := nr.isLt
  rw [codeSum_eq_digits, BitVec.toNat_append, BitVec.toNat_append, BitVec.toNat_append,
    ← Nat.shiftLeft_add_eq_or_of_lt hn, ← Nat.shiftLeft_add_eq_or_of_lt ht, ← Nat.shiftLeft_add_eq_or_of_lt hz]
  simp only [Nat.shiftLeft_eq, Params.default, Nat.mod_eq_of_lt hd, Nat.mod_eq_of_lt hz, Nat.mod_eq_of_lt ht,
    Nat.mod_eq_of_lt hn]

/-- DEC with its operand driven shows the four fields of the code (42_decode.md R150). -/
theorem exec_dec {s : State} {c : Code} (l : SizeSource) (policy : RangePolicy) (hl : s.build.legal = true)
    (hc : s.inp.codeI = some c) :
    exec (.dec l policy) s = .next { s with
      out := { OutPorts.success with
        dirO := BitVec.ofNat 32 (fieldOf s.build .dir c.toNat)
        sizeO := BitVec.ofNat 32 (fieldOf s.build .size c.toNat)
        typeO := BitVec.ofNat 32 (fieldOf s.build .typ c.toNat)
        nrO := BitVec.ofNat 32 (fieldOf s.build .nr c.toNat) } } := by
  simp only [exec_eq_answer, respondInstr, respondDec, hc, extractField_eq_fieldOf, answer_some _ hl]
  rfl

theorem default_legal : Params.default.legal = true := by decide

/-- Fields of the source's widths are in range (40_encode.md R101). -/
theorem inRange_default (dir : BitVec 2) (size : BitVec 14) (typ nr : BitVec 8) :
    InRange Params.default dir.toNat typ.toNat nr.toNat size.toNat :=
  ⟨dir.isLt, typ.isLt, nr.isLt, size.isLt⟩

/-- A field of a concatenation of fields of the source's widths (30_encoding.md R60). -/
theorem fieldOf_concat (dir : BitVec 2) (size : BitVec 14) (typ nr : BitVec 8) :
    fieldOf Params.default .dir (dir ++ size ++ typ ++ nr : BitVec 32).toNat = dir.toNat ∧
      fieldOf Params.default .size (dir ++ size ++ typ ++ nr : BitVec 32).toNat = size.toNat ∧
      fieldOf Params.default .typ (dir ++ size ++ typ ++ nr : BitVec 32).toNat = typ.toNat ∧
      fieldOf Params.default .nr (dir ++ size ++ typ ++ nr : BitVec 32).toNat = nr.toNat := by
  obtain ⟨hd, ht, hn, hz⟩ := inRange_default dir size typ nr
  rw [concat_toNat, fieldOf_dir_codeSum, fieldOf_size_codeSum, fieldOf_typ_codeSum, fieldOf_nr_codeSum]
  exact ⟨Nat.mod_eq_of_lt hd, Nat.mod_eq_of_lt hz, Nat.mod_eq_of_lt ht, Nat.mod_eq_of_lt hn⟩

/-- A value of at most 32 bits on an operand port is the number it was. -/
theorem zeroExtend_toNat {w : Nat} (x : BitVec w) (hw : w ≤ 32) : x.toNat = (x.zeroExtend 32).toNat :=
  (BitVec.toNat_setWidth_of_le hw).symm

/-- Settles O16: DEC divides the sum of `concat_toNat` into its fields, and ENC builds that sum. -/
theorem commandCodeLayout : Obligations.CommandCodeLayout := by
  intro l policy s dir size typ nr hbuild
  have hl : s.build.legal = true := hbuild ▸ default_legal
  constructor
  · intro hc
    obtain ⟨hd, hz, ht, hn⟩ := fieldOf_concat dir size typ nr
    rw [exec_dec l policy hl hc, hbuild, hd, hz, ht, hn]
    simp only [BitVec.ofNat_toNat]
    rfl
  · intro hd hz ht hn
    have hops : s.EncodeOperands (.enc .literal policy) dir.toNat typ.toNat nr.toNat size.toNat :=
      ⟨⟨_, ht, zeroExtend_toNat typ (by decide)⟩, ⟨_, hn, zeroExtend_toNat nr (by decide)⟩,
        ⟨_, hd, zeroExtend_toNat dir (by decide)⟩, ⟨_, hz, zeroExtend_toNat size (by decide)⟩⟩
    have hrange : InRange s.build dir.toNat typ.toNat nr.toNat size.toNat := hbuild ▸ inRange_default dir size typ nr
    have hcode : codeSum s.build dir.toNat typ.toNat nr.toNat size.toNat =
        (dir ++ size ++ typ ++ nr : BitVec 32).toNat := hbuild ▸ (concat_toNat dir size typ nr).symm
    rw [exec_enc_success hl hops (.inr hrange), (maskSum_eq_zero_iff ..).mpr hrange, hcode, encodeSuccess,
      BitVec.ofNat_toNat, BitVec.setWidth_eq]
    rfl

/-! ## The masks of the fields -/

/-- The bits of an in-place mask are those of its field and no others (30_encoding.md R61). -/
theorem inPlaceMask_testBit (p : Params) (f : Field) (i : Nat) :
    (p.inPlaceMask f).testBit i = true ↔ p.shift f ≤ i ∧ i < p.shift f + p.bits f := by
  rw [Params.inPlaceMask, Params.mask, Nat.testBit_shiftLeft, Nat.testBit_two_pow_sub_one, Bool.and_eq_true,
    decide_eq_true_eq, decide_eq_true_eq]
  omega

/-- Of two fields, one ends at or below the place where the other begins (00_scope.md R9). -/
theorem fields_apart (p : Params) {f g : Field} (h : f ≠ g) :
    p.shift f + p.bits f ≤ p.shift g ∨ p.shift g + p.bits g ≤ p.shift f := by
  cases f <;> cases g <;> simp only [Params.shift, Params.bits, ne_eq, not_true_eq_false] at h ⊢ <;> omega

theorem inPlaceMask_disjoint (p : Params) {f g : Field} (h : f ≠ g) : p.inPlaceMask f &&& p.inPlaceMask g = 0 := by
  refine Nat.eq_of_testBit_eq fun i => ?_
  have hapart := fields_apart p h
  rw [Nat.zero_testBit, Bool.eq_false_iff, Nat.testBit_and, ne_eq, Bool.and_eq_true, inPlaceMask_testBit,
    inPlaceMask_testBit]
  omega

/-- The fields of a legal build are stacked from bit 0 to bit 31 (00_scope.md R9, R10). -/
theorem inPlaceMask_cover {p : Params} (h : p.legal = true) :
    p.inPlaceMask .nr ||| p.inPlaceMask .typ ||| p.inPlaceMask .size ||| p.inPlaceMask .dir = 2 ^ 32 - 1 := by
  obtain ⟨-, -, -, -, hsum, -⟩ := legal_widths h
  refine Nat.eq_of_testBit_eq fun i => ?_
  rw [Nat.testBit_two_pow_sub_one, Bool.eq_iff_iff]
  simp only [Nat.testBit_or, Bool.or_eq_true, inPlaceMask_testBit, decide_eq_true_eq, Params.shift, Params.bits]
  omega

theorem pack_eq_add (p : Params) (d t n v : Nat) :
    pack p d t n v = placeField p .dir d + placeField p .size v + placeField p .typ t + placeField p .nr n := by
  simp only [pack_eq_codeSum, codeSum, placeField, Params.bits, Params.shift, Nat.shiftLeft_eq, pow_zero, Nat.mul_one]

/-- Settles O17: the bits of each mask are those of `inPlaceMask_testBit`. -/
theorem fieldMasksPartitionTheCode : Obligations.FieldMasksPartitionTheCode :=
  fun p h => ⟨fun _ _ hne => inPlaceMask_disjoint p hne, inPlaceMask_cover h, pack_eq_add p⟩

/-! ## The lines the assembler takes, and their command words -/

/-- A line the assembler takes as far as its suffix and its OP go (30_encoding.md R77; log 28). -/
structure LineOk (line : AsmLine) : Prop where
  suffix : line.suffixS = true → takesSuffix line.body = true
  reservedOp : ∀ op, line.body = .reserved op → 8 ≤ op ∧ op < 16

/-- A line whose mnemonic takes the suffix is taken with it and without it. -/
theorem lineOk_of_takesSuffix {line : AsmLine} (h : takesSuffix line.body = true) : LineOk line where
  suffix _ := h
  reservedOp op hop := by
    rw [hop] at h
    cases h

/-- A line without the suffix is taken unless its OP is not a reserved one. -/
theorem lineOk_of_noSuffix {body : AsmBody} (h : ∀ op, body = .reserved op → 8 ≤ op ∧ op < 16) :
    LineOk ⟨false, body⟩ where
  suffix hs := by cases hs
  reservedOp := h

/-- The assembler makes a request of no other line. -/
theorem lineOk_of_assemble {p : Params} {line : AsmLine} {inp : InPorts} (h : assemble p line = .ok inp) :
    LineOk line := by
  unfold assemble at h
  split at h
  · cases h
  · next hsuffix =>
    refine ⟨fun hs => by simpa [hs] using hsuffix, fun op hop => ?_⟩
    rw [hop, asmOperands] at h
    split at h
    · assumption
    · cases h

theorem lineOp_lt {line : AsmLine} (h : LineOk line) : lineOp line.body < 16 := by
  cases hbody : line.body with
  | reserved op => exact (h.reservedOp op hbody).2
  | _ => simp only [lineOp]; omega

theorem asmInstr_wellFormed {line : AsmLine} (h : LineOk line) : (asmInstr line).wellFormed = true := by
  cases hbody : line.body with
  | reserved op =>
    obtain ⟨hlow, hhigh⟩ := h.reservedOp op hbody
    simpa [asmInstr, hbody, Instr.wellFormed, Nat.mod_eq_of_lt hhigh] using hlow
  | _ => simp only [asmInstr, hbody, Instr.wellFormed]

/-- `{L, S, OP}` as bits is the number `commandWord` (30_encoding.md R66). -/
theorem encodeWord_eq_commandWord (l : SizeSource) (policy : RangePolicy) {op : Nat} (h : op < 16) :
    encodeWord l policy (BitVec.ofNat 4 op) = BitVec.ofNat 6 (commandWord l policy op) := by
  revert op
  cases l <;> cases policy <;> decide

theorem asmPolicy_eq_linePolicy (suffixS : Bool) : asmPolicy suffixS = linePolicy suffixS := by
  cases suffixS <;> rfl

/-- The command word of a line has `L` from the form of its size, `S` from its suffix and the OP of its mnemonic
(30_encoding.md R77). -/
theorem encode_asmInstr {line : AsmLine} (h : LineOk line) :
    encode (asmInstr line) =
      BitVec.ofNat 6 (commandWord (lineSource line.body) (linePolicy line.suffixS) (lineOp line.body)) := by
  rw [← encodeWord_eq_commandWord _ _ (lineOp_lt h), ← asmPolicy_eq_linePolicy]
  obtain ⟨suffixS, body⟩ := line
  have noSuffix (hb : takesSuffix body = false) : suffixS = false :=
    Bool.eq_false_iff.mpr fun hs => Bool.false_ne_true (hb.symm.trans (h.suffix hs))
  cases body with
  | mkn t n => rfl
  | mkw t n sz => cases sz <;> rfl
  | mkr t n sz => cases sz <;> rfl
  | mkrw t n sz => cases sz <;> rfl
  | enc d t n sz => rcases sz with _ | (_ | _) <;> rfl
  | dec c => obtain rfl := noSuffix rfl; rfl
  | lsize es => obtain rfl := noSuffix rfl; rfl
  | const i => obtain rfl := noSuffix rfl; rfl
  | reserved op => obtain rfl := noSuffix rfl; rfl

/-! ## The operand ports of a line -/

/-- A line that is taken is its command word with every other port 0, changed at the ports of its operands. -/
theorem assemble_eq_asmOperands (p : Params) {line : AsmLine} (h : LineOk line) :
    assemble p line = asmOperands p line.body
      (portsWith p (commandWord (lineSource line.body) (linePolicy line.suffixS) (lineOp line.body))
        0 0 0 0 [] 0 0) := by
  have hsuffix : ¬ (line.suffixS && !takesSuffix line.body) = true := by
    simpa using h.suffix
  rw [assemble, if_neg hsuffix, encode_asmInstr h]
  rfl

/-- A layout that fits, on ports that carried none. -/
theorem asmLayout_portsWith {p : Params} {es : List AsmEntry} (h : LayoutFits p es) (word : Nat) (d t n z : Operand)
    (c : Code) (i : Operand) :
    asmLayout p es (portsWith p word d t n z [] c i) =
      .ok (portsWith p word d t n z (es.map (fun e => BitVec.ofNat 20 (entryNumber e))) c i) := by
  rw [asmLayout_ok p es _ h, portsWith, portsWith, List.length_map]

/-- The mnemonics that write a size and no direction, with their OPs (30_encoding.md R67, R77). -/
def sizedMnemonics : List ((AsmNumber → AsmNumber → AsmSize → AsmBody) × Nat) :=
  [(AsmBody.mkw, 1), (AsmBody.mkr, 2), (AsmBody.mkrw, 3)]

/-- MKW, MKR and MKRW lines differ in their OP alone. -/
theorem assemble_sized (p : Params) (suffixS : Bool) (t n : AsmNumber) (sz : AsmSize)
    {m : (AsmNumber → AsmNumber → AsmSize → AsmBody) × Nat} (hm : m ∈ sizedMnemonics) :
    assemble p ⟨suffixS, m.1 t n sz⟩ = asmSize p sz
      (portsWith p (commandWord (asmSource sz) (linePolicy suffixS) m.2) 0 (asmOperand t) (asmOperand n) 0 [] 0 0) := by
  simp only [sizedMnemonics, List.mem_cons, List.not_mem_nil, or_false] at hm
  rcases hm with rfl | rfl | rfl
  all_goals
    rw [assemble_eq_asmOperands p (lineOk_of_takesSuffix rfl)]
    cases sz <;> rfl

/-- An ENC line has its direction on `dir_i` and a size, the literal 0 where it is left out (30_encoding.md R78). -/
theorem assemble_enc (p : Params) (suffixS : Bool) (d : AsmDir) (t n : AsmNumber) (sz : Option AsmSize) :
    assemble p ⟨suffixS, .enc d t n sz⟩ = asmSize p (encSize sz)
      (portsWith p (commandWord (asmSource (encSize sz)) (linePolicy suffixS) 4) (asmDir p d) (asmOperand t)
        (asmOperand n) 0 [] 0 0) := by
  rw [assemble_eq_asmOperands p (lineOk_of_takesSuffix rfl)]
  rcases sz with _ | (_ | _) <;> rfl

/-- Settles O43: MKN has no size; the others put it on the ports by `asmSize`. -/
theorem assembledConstructorLines : Obligations.AssembledConstructorLines := by
  intro p suffixS t n
  refine ⟨assemble_eq_asmOperands p (lineOk_of_takesSuffix rfl), fun m hm => ⟨fun z => ?_, fun es hes => ?_⟩⟩
  · exact assemble_sized p suffixS t n (.num z) hm
  · exact (assemble_sized p suffixS t n (.layout es) hm).trans (asmLayout_portsWith hes ..)

/-- Settles O44: a size that is left out is the literal 0, which is on `size_i` already. -/
theorem assembledEncLines : Obligations.AssembledEncLines := by
  intro p suffixS d t n
  refine ⟨assemble_enc p suffixS d t n none, fun z => assemble_enc p suffixS d t n (some (.num z)), fun es hes => ?_⟩
  exact (assemble_enc p suffixS d t n (some (.layout es))).trans (asmLayout_portsWith hes ..)

/-- An LSIZE line of a layout that fits (30_encoding.md R77). -/
theorem assemble_lsize {p : Params} {es : List AsmEntry} (h : LayoutFits p es) :
    assemble p ⟨false, .lsize es⟩ =
      .ok (portsWith p 6 0 0 0 0 (es.map (fun e => BitVec.ofNat 20 (entryNumber e))) 0 0) :=
  (assemble_eq_asmOperands p (lineOk_of_noSuffix fun _ h => by cases h)).trans (asmLayout_portsWith h ..)

/-- Settles O45: a line without the suffix has `S = 0`, and none of the four has a size, so `L = 0`. -/
theorem assembledUnpackingLines : Obligations.AssembledUnpackingLines := by
  intro p
  refine ⟨fun c => ?_, fun es hes => assemble_lsize hes, fun i => ?_, fun op hlow hhigh => ?_⟩
  · exact assemble_eq_asmOperands p (lineOk_of_noSuffix fun _ h => by cases h)
  · exact assemble_eq_asmOperands p (lineOk_of_noSuffix fun _ h => by cases h)
  · have hop : LineOk ⟨false, .reserved op⟩ := lineOk_of_noSuffix fun _ h => AsmBody.reserved.inj h ▸ ⟨hlow, hhigh⟩
    have hword : commandWord .literal .wrap op = op := Nat.zero_add op
    rw [assemble_eq_asmOperands p hop, asmOperands, if_pos ⟨hlow, hhigh⟩]
    simp only [lineSource, linePolicy, lineOp, hword]

/-- Settles O46: the suffix is refused first, then an OP, then a layout of too many entries. -/
theorem assemblerRefusals : Obligations.AssemblerRefusals := by
  intro p
  refine ⟨fun _ => rfl, fun _ => rfl, fun _ => rfl, fun _ => rfl, fun op hop => ?_, fun es hes => ⟨?_, ?_⟩⟩
  · have hnot : ¬ (8 ≤ op ∧ op < 16) := by omega
    exact if_neg hnot
  · exact (assemble_eq_asmOperands p (lineOk_of_noSuffix fun _ h => by cases h)).trans (asmLayout_tooMany p es _ hes)
  · intro suffixS d t n
    refine ⟨(assemble_enc p suffixS d t n _).trans (asmLayout_tooMany p es _ hes), fun make hmake => ?_⟩
    obtain ⟨m, hm, rfl⟩ : ∃ m ∈ sizedMnemonics, m.1 = make := List.mem_map.mp hmake
    exact (assemble_sized p suffixS t n _ hm).trans (asmLayout_tooMany p es _ hes)

/-- Settles O47: a number by `hostOperand_natCast`, a name by the table of its code. -/
theorem assemblerOperandValues : Obligations.AssemblerOperandValues :=
  ⟨fun k => ⟨hostOperand_natCast k, hostOperand_natCast k⟩, hostOperand_natCast 0x6B,
    fun _ _ => ⟨rfl, rfl, rfl, rfl, rfl, rfl⟩, rfl, rfl⟩

/-! ## An assembled LSIZE line -/

/-- An assembler entry, taken apart as the block takes its layout entry apart (30_encoding.md R73): its width, and a kind
and a byte order that are not the reserved code 3. -/
theorem entryNumber_parts (e : AsmEntry) :
    entryNumber e / 16 = e.width ∧ entryNumber e / 4 % 4 ≠ 3 ∧ entryNumber e % 4 ≠ 3 := by
  obtain ⟨kind, width, order⟩ := e
  cases kind <;> rcases order with _ | (_ | _ | _) <;> simp only [entryNumber] <;> omega

theorem ofNat_entryNumber_toNat {e : AsmEntry} (h : e.width < 65536) :
    (BitVec.ofNat 20 (entryNumber e)).toNat = entryNumber e := by
  obtain ⟨hwidth, -, -⟩ := entryNumber_parts e
  exact Nat.mod_eq_of_lt (by omega)

theorem entryOk_ofNat_entryNumber {e : AsmEntry} (h : e.width < 65536) (h8 : e.width % 8 = 0) :
    EntryOk (BitVec.ofNat 20 (entryNumber e)) := by
  obtain ⟨hwidth, hkind, hord⟩ := entryNumber_parts e
  rw [EntryOk, ofNat_entryNumber_toNat h, hwidth]
  exact ⟨h8, hkind, hord⟩

theorem layoutLength_entryNumbers {es : List AsmEntry} (h : ∀ e ∈ es, e.width < 65536) :
    layoutLength (es.map (fun e => BitVec.ofNat 20 (entryNumber e))) = (es.map (fun e => e.width / 8)).sum := by
  rw [layoutLength, List.map_map]
  refine congrArg List.sum (List.map_congr_left fun e he => ?_)
  obtain ⟨hwidth, -, -⟩ := entryNumber_parts e
  rw [Function.comp_apply, ofNat_entryNumber_toNat (h e he), hwidth]

/-- 255 entries of 16-bit widths stay far below the 32 bits of `lsize_o`. -/
theorem sum_widths_lt {es : List AsmEntry} (hlen : es.length < 256) (h : ∀ e ∈ es, e.width < 65536) :
    (es.map (fun e => e.width / 8)).sum < 2 ^ 32 := by
  have hsum : (es.map (fun e => e.width / 8)).sum ≤ (es.map (fun e => e.width / 8)).length • 8192 := by
    refine List.sum_le_card_nsmul _ _ fun x hx => ?_
    obtain ⟨e, he, rfl⟩ := List.mem_map.mp hx
    have := h e he
    omega
  rw [List.length_map, smul_eq_mul] at hsum
  omega

/-- LSIZE of a driven, valid layout shows its length (41_layout_size.md R135). -/
theorem respondLsize_of_layoutIs {s : State} {es : List LayoutEntry} (l : SizeSource) (policy : RangePolicy)
    (h : s.LayoutIs es) (hlen : es.length ≤ s.build.lmax) (hok : ∀ e ∈ es, EntryOk e) :
    respondLsize s.build l policy s.inp =
      some { OutPorts.success with lsizeO := BitVec.ofNat 32 (layoutLength es) } := by
  simp only [respondLsize, readLayout_of_layoutIs s es h hlen, layoutBytes_ok s.build es es.length hlen hok]

/-- The ports of a request carry its layout. -/
theorem layoutIs_portsWith (s : State) (word : Nat) (d t n z : Operand) {es : List LayoutEntry} (c : Code)
    (i : Operand) (h : es.length < 256) : (s.present (portsWith s.build word d t n z es c i)).LayoutIs es := by
  refine ⟨rfl, h, fun j hj => ?_⟩
  rw [present_inp, portsWith, List.getElem?_append_left (by simpa using hj), List.getElem?_map,
    List.getElem?_eq_getElem hj, Option.map_some]

/-- Settles O39: the line drives the layout of its entries, which is valid, and LSIZE shows its length. -/
theorem assembledLsizeAddsItsWidths : Obligations.AssembledLsizeAddsItsWidths := by
  intro s es hl hmax hlen hwidths
  have h16 : ∀ e ∈ es, e.width < 65536 := fun e he => (hwidths e he).1
  have hok : ∀ x ∈ es.map (fun e => BitVec.ofNat 20 (entryNumber e)), EntryOk x := by
    intro x hx
    obtain ⟨e, he, rfl⟩ := List.mem_map.mp hx
    exact entryOk_ofNat_entryNumber (hwidths e he).1 (hwidths e he).2
  have hrespond := respondLsize_of_layoutIs .literal .wrap
    (layoutIs_portsWith s 6 0 0 0 0 0 0 (by simpa using hlen)) (by simpa using hmax) hok
  refine ⟨_, _, assemble_lsize ⟨hmax, hlen, h16⟩, step_of_response hl rfl hrespond, rfl, ?_⟩
  rw [layoutLength_entryNumbers h16]
  exact Nat.mod_eq_of_lt (sum_widths_lt hlen h16)

/-! ## A response is lawful -/

/-- An error response is lawful, an out-of-range error if it names a field that is out of range (60_exceptions.md
R185). -/
theorem raiseError_lawful {e : CodecError} (h : e ≠ .invalidFieldRange 0#4) : (raiseError e).Lawful := by
  refine .inr ⟨rfl, ?_, ?_, rfl, rfl, rfl, rfl, rfl, rfl⟩
  · cases e with
    | invalidFieldRange mask => exact .inl rfl
    | unsupportedLayout => exact .inr (.inl rfl)
    | illegalOp => exact .inr (.inr (.inl rfl))
    | badConstIndex => exact .inr (.inr (.inr rfl))
  · cases e with
    | invalidFieldRange mask =>
      have hmask : mask ≠ 0#4 := fun h0 => h (congrArg _ h0)
      exact ⟨fun _ => hmask, fun _ => rfl⟩
    | unsupportedLayout => simp [raiseError, CodecError.code, CodecError.rng]
    | illegalOp => simp [raiseError, CodecError.code, CodecError.rng]
    | badConstIndex => simp [raiseError, CodecError.code, CodecError.rng]

theorem finish_lawful (p : Params) (policy : RangePolicy) (d t n sz : Nat) (check : Bool) :
    (finish p policy d t n sz check).Lawful := by
  dsimp only [finish]
  split
  · next h =>
    obtain ⟨-, hmask⟩ := h
    exact raiseError_lawful fun he => hmask (CodecError.invalidFieldRange.inj he)
  · exact .inl ⟨rfl, rfl⟩

theorem layoutBytes_eq_error {p : Params} {n : Nat} {es : List LayoutEntry} {e : CodecError}
    (h : layoutBytes p n es = .error e) : e = .unsupportedLayout := by
  unfold layoutBytes at h
  split at h
  · cases h
  · exact (Except.error.inj h).symm

/-- Every way of a layout to be invalid is the one error (41_layout_size.md R132). -/
theorem readLayout_eq_error {p : Params} {inp : InPorts} {e : CodecError}
    (h : readLayout p inp = some (.error e)) : e = .unsupportedLayout := by
  unfold readLayout at h
  split at h
  · cases h
  · split at h
    · cases h
    · exact layoutBytes_eq_error (Option.some.inj h)

theorem sizeOperand_eq_error {p : Params} {l : SizeSource} {inp : InPorts} {e : CodecError}
    (h : sizeOperand p l inp = some (.error e)) : e = .unsupportedLayout := by
  cases l with
  | literal =>
    simp only [sizeOperand] at h
    split at h <;> cases h
  | layout => exact readLayout_eq_error h

/-- An operation with a size ends in its range check or in the error of its layout (40_encode.md R103). -/
theorem withSized_lawful {p : Params} {l : SizeSource} {inp : InPorts} {policy : RangePolicy} {d : Nat} {check : Bool}
    {o : OutPorts} (h : withSized p l inp (fun t n sz => finishSized p policy d t n sz check) = some o) :
    o.Lawful := by
  obtain ⟨t, n, sz, -, -, hsz, rfl⟩ := withSized_eq_some h
  cases sz with
  | error e =>
    obtain rfl := sizeOperand_eq_error hsz
    exact raiseError_lawful nofun
  | ok v => exact finish_lawful p policy d t.toNat n.toNat v check

/-- Every response of an operation is a success or one of the four errors (60_exceptions.md R180). -/
theorem respondInstr_lawful {p : Params} {inp : InPorts} {i : Instr} {o : OutPorts}
    (h : respondInstr p inp i = some o) : o.Lawful := by
  cases i with
  | mkn l policy =>
    simp only [respondInstr, respondMkn] at h
    split at h
    · obtain rfl := Option.some.inj h
      exact finish_lawful p policy _ _ _ _ _
    · cases h
  | mkw l policy => exact withSized_lawful h
  | mkr l policy => exact withSized_lawful h
  | mkrw l policy => exact withSized_lawful h
  | enc l policy =>
    simp only [respondInstr, respondEnc] at h
    split at h
    · cases h
    · exact withSized_lawful h
  | dec l policy =>
    simp only [respondInstr, respondDec] at h
    split at h
    · cases h
    · obtain rfl := Option.some.inj h
      exact .inl ⟨rfl, rfl⟩
  | lsize l policy =>
    simp only [respondInstr, respondLsize] at h
    split at h
    · cases h
    · next e he =>
      obtain rfl := Option.some.inj h
      obtain rfl := readLayout_eq_error he
      exact raiseError_lawful nofun
    · obtain rfl := Option.some.inj h
      exact .inl ⟨rfl, rfl⟩
  | const l policy =>
    simp only [respondInstr, respondConst] at h
    split at h
    · cases h
    · split at h <;> obtain rfl := Option.some.inj h
      · exact raiseError_lawful nofun
      · exact .inl ⟨rfl, rfl⟩
  | reserved l policy op =>
    obtain rfl := Option.some.inj h
    exact raiseError_lawful nofun

/-! ## An assembled line as a request -/

/-- Entries are made only of widths that 16 bits hold (log 19). -/
theorem asmEntries_widths {es : List AsmEntry} {xs : List LayoutEntry} (h : asmEntries es = .ok xs) :
    ∀ e ∈ es, e.width < 65536 := by
  induction es generalizing xs with
  | nil => exact nofun
  | cons e es ih =>
    unfold asmEntries at h
    split at h
    · next hwidth =>
      split at h
      · cases h
      · next rest hrest => exact List.forall_mem_cons.mpr ⟨hwidth, ih hrest⟩
    · cases h

/-- The assembler puts only a layout that fits on the ports. -/
theorem layoutFits_of_asmLayout {p : Params} {es : List AsmEntry} {inp out : InPorts}
    (h : asmLayout p es inp = .ok out) : LayoutFits p es := by
  unfold asmLayout at h
  split at h
  · next hlen =>
    split at h
    · cases h
    · next xs hxs => exact ⟨hlen.1, hlen.2, asmEntries_widths hxs⟩
  · cases h

/-- Every port is driven, `cmd_i` with this word, and no entry port beyond LMAX. -/
def IsRequest (p : Params) (word : Nat) (inp : InPorts) : Prop :=
  ∃ d t n z es c i, es.length ≤ p.lmax ∧ inp = portsWith p word d t n z es c i

theorem asmLayout_isRequest {p : Params} {es : List AsmEntry} {word : Nat} {d t n z : Operand} {c : Code} {i : Operand}
    {out : InPorts} (h : asmLayout p es (portsWith p word d t n z [] c i) = .ok out) : IsRequest p word out := by
  have hfits := layoutFits_of_asmLayout h
  rw [asmLayout_portsWith hfits] at h
  refine ⟨d, t, n, z, _, c, i, ?_, (Except.ok.inj h).symm⟩
  rw [List.length_map]
  exact hfits.1

theorem asmSize_isRequest {p : Params} {sz : AsmSize} {word : Nat} {d t n : Operand} {c : Code} {i : Operand}
    {out : InPorts} (h : asmSize p sz (portsWith p word d t n 0 [] c i) = .ok out) : IsRequest p word out := by
  cases sz with
  | num k => exact ⟨d, t, n, asmOperand k, [], c, i, Nat.zero_le _, (Except.ok.inj h).symm⟩
  | layout es => exact asmLayout_isRequest h

/-- The operands of a line change its operand ports and leave every port driven (30_encoding.md R77). -/
theorem asmOperands_isRequest {p : Params} {body : AsmBody} {word : Nat} {out : InPorts}
    (h : asmOperands p body (portsWith p word 0 0 0 0 [] 0 0) = .ok out) : IsRequest p word out := by
  cases body with
  | mkn t n =>
    exact ⟨0, asmOperand t, asmOperand n, 0, [], 0, 0, Nat.zero_le _, (Except.ok.inj h).symm⟩
  | mkw t n sz => exact asmSize_isRequest (t := asmOperand t) (n := asmOperand n) h
  | mkr t n sz => exact asmSize_isRequest (t := asmOperand t) (n := asmOperand n) h
  | mkrw t n sz => exact asmSize_isRequest (t := asmOperand t) (n := asmOperand n) h
  | enc d t n sz => exact asmSize_isRequest (d := asmDir p d) (t := asmOperand t) (n := asmOperand n) h
  | dec c => exact ⟨0, 0, 0, 0, [], asmOperand c, 0, Nat.zero_le _, (Except.ok.inj h).symm⟩
  | lsize es => exact asmLayout_isRequest h
  | const i => exact ⟨0, 0, 0, 0, [], 0, asmIndex i, Nat.zero_le _, (Except.ok.inj h).symm⟩
  | reserved op =>
    simp only [asmOperands] at h
    split at h
    · exact ⟨0, 0, 0, 0, [], 0, 0, Nat.zero_le _, (Except.ok.inj h).symm⟩
    · cases h

theorem assemble_isRequest {p : Params} {line : AsmLine} {inp : InPorts} (h : assemble p line = .ok inp) :
    IsRequest p (commandWord (lineSource line.body) (linePolicy line.suffixS) (lineOp line.body)) inp :=
  asmOperands_isRequest (assemble_eq_asmOperands p (lineOk_of_assemble h) ▸ h)

namespace IsRequest

variable {p : Params} {word : Nat} {inp : InPorts}

theorem cmdI (h : IsRequest p word inp) : inp.cmdI = some (BitVec.ofNat 6 word) := by
  obtain ⟨d, t, n, z, es, c, i, -, rfl⟩ := h
  rfl

theorem layE_length (h : IsRequest p word inp) : inp.layE.length = p.lmax := by
  obtain ⟨d, t, n, z, es, c, i, hlen, rfl⟩ := h
  simp only [portsWith, List.length_append, List.length_map, List.length_replicate]
  omega

/-- No entry port of a request is undriven: it carries an entry of the layout or 0. -/
theorem layE_ne_none (h : IsRequest p word inp) : none ∉ inp.layE := by
  obtain ⟨d, t, n, z, es, c, i, -, rfl⟩ := h
  simp [portsWith]

/-- The only ports a request leaves undriven are entry ports the build does not have (00_scope.md R13). -/
theorem undriven (h : IsRequest p word inp) {q : InPort} (hq : inp.valueAt q = none) :
    ∃ j, q = .layE j ∧ p.lmax ≤ j := by
  cases q with
  | layE j =>
    refine ⟨j, rfl, Nat.not_lt.mp fun hj => h.layE_ne_none ?_⟩
    have hj' : j < inp.layE.length := h.layE_length ▸ hj
    have hnone : inp.layE[j] = none := by simpa [InPorts.valueAt, hj'] using hq
    exact hnone ▸ List.getElem_mem hj'
  | _ =>
    obtain ⟨d, t, n, z, es, c, i, -, rfl⟩ := h
    cases hq

end IsRequest

/-- The entry ports that are read are below LMAX (10_state.md R22; log 11). -/
theorem readsSize_layE_lt {p : Params} {inp : InPorts} {l : SizeSource} {j : Nat}
    (h : readsSize p inp l (.layE j)) : j < p.lmax := by
  cases l with
  | literal => cases h
  | layout =>
    obtain ⟨n, -, -, hj⟩ := h
    exact hj

theorem readsPort_layE_lt {p : Params} {inp : InPorts} {i : Instr} {j : Nat}
    (h : readsPort p inp i (.layE j)) : j < p.lmax := by
  rcases h with h | h
  · cases h
  · cases i with
    | mkw l policy => exact readsSize_layE_lt (l := l) (by simpa using h)
    | mkr l policy => exact readsSize_layE_lt (l := l) (by simpa using h)
    | mkrw l policy => exact readsSize_layE_lt (l := l) (by simpa using h)
    | enc l policy => exact readsSize_layE_lt (l := l) (by simpa using h)
    | lsize l policy => exact readsSize_layE_lt (l := .layout) h
    | _ => simp only [reduceCtorEq, or_self] at h

/-- Settles O38: an assembled line drives every port the block has, so its operation gets a response. -/
theorem assembledLineIsServed : Obligations.AssembledLineIsServed := by
  intro s line inp hl h
  have hline := lineOk_of_assemble h
  have hreq := assemble_isRequest h
  have hcmd : (s.present inp).inp.cmdI = some (encode (asmInstr line)) := by
    rw [encode_asmInstr hline]
    exact hreq.cmdI
  have hp : (s.present inp).presented = some (asmInstr line) := by
    rw [(step_of_cmdI hcmd).1, (decodeOfEncode _ (asmInstr_wellFormed hline)).1]
  have hdriven : (s.present inp).Driven (asmInstr line) := fun q hq hnone => by
    obtain ⟨j, rfl, hj⟩ := hreq.undriven hnone
    exact absurd (readsPort_layE_lt hq) (Nat.not_lt.mpr hj)
  obtain ⟨o, ho⟩ := respondInstr_of_driven ((driven_iff _ _).mp hdriven)
  exact ⟨hreq.cmdI, hp, hreq.layE_length, fun q => hreq.undriven, o, respondInstr_lawful ho, step_of_response hl hp ho⟩

end Sys2Proof.Machine
end


section
/-! PROOFS. 40_encode.md: the five encode operations whole (R104 to R108), their range policies (R112), and what their
codes have to do with one another (R108, R110, R111). -/

namespace Sys2Proof.Machine

/-! ## The response of an encode operation -/

/-- Every instruction carries a policy. -/
theorem exists_underPolicy (i : Instr) : ∃ policy, underPolicy policy i = i := by
  cases i with
  | mkn l policy => exact ⟨policy, rfl⟩
  | mkw l policy => exact ⟨policy, rfl⟩
  | mkr l policy => exact ⟨policy, rfl⟩
  | mkrw l policy => exact ⟨policy, rfl⟩
  | enc l policy => exact ⟨policy, rfl⟩
  | dec l policy => exact ⟨policy, rfl⟩
  | lsize l policy => exact ⟨policy, rfl⟩
  | const l policy => exact ⟨policy, rfl⟩
  | reserved l policy op => exact ⟨policy, rfl⟩

/-- With its size resolved, an operation ends in the range check of its operands (40_encode.md R102, R103). -/
theorem withSized_of_sizeIs {s : State} {l : SizeSource} {t n : Operand} {v : Nat} (ht : s.inp.typeI = some t)
    (hn : s.inp.nrI = some n) (hv : s.SizeIs l v) (policy : RangePolicy) (d : Nat) (check : Bool) :
    withSized s.build l s.inp (fun t n sz => finishSized s.build policy d t n sz check) =
      some (finish s.build policy d t.toNat n.toNat v check) := by
  simp only [withSized, ht, hn, sizeOperand_of_sizeIs s l v hv, finishSized]

/-- All five operations end in `finish` of their operands, with a mask that is the one of 40_encode.md R101: ENC checks
its direction, and the direction of a constructor is in range in a legal build. -/
theorem respondInstr_of_encodeOperands {s : State} {i : Instr} {d t n v : Nat} (hl : s.build.legal = true)
    (h : s.EncodeOperands i d t n v) :
    ∃ check, rangeMask s.build d t n v check = BitVec.ofNat 4 (maskSum s.build d t n v) ∧
      ∀ policy, respondInstr s.build s.inp (underPolicy policy i) = some (finish s.build policy d t n v check) := by
  obtain ⟨⟨x, hx, rfl⟩, ⟨y, hy, rfl⟩, h⟩ := h
  have hmask (a : Direction) := rangeMask_unchecked s.build (s.build.dirCode a) x.toNat y.toNat v (dirCode_lt hl a)
  cases i with
  | mkn l _ =>
    obtain ⟨rfl, rfl⟩ := h
    refine ⟨false, hmask .none, fun policy => ?_⟩
    simp only [underPolicy, respondInstr, respondMkn, hx, hy, Params.dirCode]
  | mkw l _ =>
    obtain ⟨rfl, hv⟩ := h
    exact ⟨false, hmask .write, fun policy => withSized_of_sizeIs hx hy hv policy _ false⟩
  | mkr l _ =>
    obtain ⟨rfl, hv⟩ := h
    exact ⟨false, hmask .read, fun policy => withSized_of_sizeIs hx hy hv policy _ false⟩
  | mkrw l _ =>
    obtain ⟨rfl, hv⟩ := h
    exact ⟨false, hmask .readWrite, fun policy => withSized_of_sizeIs hx hy hv policy _ false⟩
  | enc l _ =>
    obtain ⟨⟨w, hw, rfl⟩, hv⟩ := h
    refine ⟨true, rangeMask_checked .., fun policy => ?_⟩
    simp only [underPolicy, respondInstr, respondEnc, hw, withSized_of_sizeIs hx hy hv]
  | dec l _ => exact h.elim
  | lsize l _ => exact h.elim
  | const l _ => exact h.elim
  | reserved l _ op => exact h.elim

/-- An encode that wraps, or whose operands are in range, packs them (40_encode.md R100, R102). -/
theorem exec_encode_success {s : State} {i : Instr} {policy : RangePolicy} {d t n v : Nat} (hl : s.build.legal = true)
    (h : s.EncodeOperands i d t n v) (hr : policy = .wrap ∨ InRange s.build d t n v) :
    exec (underPolicy policy i) s = .next { s with
      out := encodeSuccess (BitVec.ofNat 4 (maskSum s.build d t n v)) (codeSum s.build d t n v) } := by
  obtain ⟨check, hmask, hrespond⟩ := respondInstr_of_encodeOperands hl h
  rw [exec_eq_answer, hrespond, answer_some _ hl, finish_success _ _ _ _ _ _ _ hmask hr]
  rfl

/-- A strict encode with an operand out of range fails (40_encode.md R102, 60_exceptions.md R181). -/
theorem exec_encode_invalidFieldRange {s : State} {i : Instr} {d t n v : Nat} (hl : s.build.legal = true)
    (h : s.EncodeOperands i d t n v) (hr : ¬ InRange s.build d t n v) :
    exec (underPolicy .strict i) s = .next { s with
      out := errorOut 1#3 (BitVec.ofNat 4 (maskSum s.build d t n v)) } := by
  obtain ⟨check, hmask, hrespond⟩ := respondInstr_of_encodeOperands hl h
  rw [exec_eq_answer, hrespond, answer_some _ hl, finish_invalidFieldRange _ _ _ _ _ _ hmask hr]
  rfl

/-- Both ends of an encode whose operands are read, as the statements of the operations give them. -/
theorem exec_encode {s : State} {i : Instr} {d t n v : Nat} (policy : RangePolicy) (hl : s.build.legal = true)
    (h : s.EncodeOperands i d t n v) :
    (policy = .wrap ∨ InRange s.build d t n v →
      exec (underPolicy policy i) s = .next { s with
        out := encodeSuccess (BitVec.ofNat 4 (maskSum s.build d t n v)) (codeSum s.build d t n v) }) ∧
    (policy = .strict → ¬ InRange s.build d t n v →
      exec (underPolicy policy i) s = .next { s with
        out := errorOut 1#3 (BitVec.ofNat 4 (maskSum s.build d t n v)) }) := by
  refine ⟨exec_encode_success hl h, ?_⟩
  rintro rfl hr
  exact exec_encode_invalidFieldRange hl h hr

/-- An operation with an invalid layout fails before any range check, under both policies (40_encode.md R103,
60_exceptions.md R182, R186). -/
theorem exec_unsupportedLayout {s : State} {i : Instr} {l : SizeSource} {t n : Operand} {policy : RangePolicy}
    {d : Nat} {check : Bool} (hl : s.build.legal = true) (ht : s.inp.typeI = some t) (hn : s.inp.nrI = some n)
    (hi : respondInstr s.build s.inp i =
      withSized s.build l s.inp (fun t n sz => finishSized s.build policy d t n sz check)) :
    l = .layout → s.LayoutInvalid → exec i s = .next { s with out := errorOut 2#3 0#4 } := by
  rintro rfl hinv
  have hrespond : respondInstr s.build s.inp i = some (raiseError .unsupportedLayout) := by
    simp only [hi, withSized, ht, hn, sizeOperand, readLayout_of_invalid s hinv, finishSized]
  rw [exec_eq_answer, hrespond, answer_some _ hl]
  rfl

/-- The step runs a well-formed instruction whose command word `{L, S, OP}` stands on `cmd_i` (30_encoding.md R66,
R67). -/
theorem step_of_commandWord {s : State} {i : Instr} {l : SizeSource} {policy : RangePolicy} {op : Nat}
    (hw : i.wellFormed = true) (hop : op < 16) (hi : encode i = encodeWord l policy (BitVec.ofNat 4 op))
    (h : s.inp.cmdI = some (BitVec.ofNat 6 (commandWord l policy op))) : step s = exec i s := by
  rw [(step_of_cmdI h).2, ← encodeWord_eq_commandWord l policy hop, ← hi, (decodeOfEncode i hw).1]

/-! ## The obligations about one operation -/

/-- Settles O6: the operands of MKN are DIR_NONE and a size of 0, whatever stands on the size ports. -/
theorem mknPacksNoneWithSizeZero : Obligations.MknPacksNoneWithSizeZero := by
  intro l policy s t n hl ht hn
  have hops : s.EncodeOperands (.mkn l policy) s.build.dirNone t.toNat n.toNat 0 :=
    ⟨⟨t, ht, rfl⟩, ⟨n, hn, rfl⟩, rfl, rfl⟩
  obtain ⟨hsuccess, herror⟩ := exec_encode policy hl hops
  exact ⟨hsuccess, herror, step_of_commandWord rfl (by decide) rfl⟩

/-- Settles O7: the direction of MKW is DIR_WRITE, and its size is resolved before the range check. -/
theorem mkwPacksWrite : Obligations.MkwPacksWrite := by
  intro l policy s t n hl ht hn
  have hops (v : Nat) (hv : s.SizeIs l v) : s.EncodeOperands (.mkw l policy) s.build.dirWrite t.toNat n.toNat v :=
    ⟨⟨t, ht, rfl⟩, ⟨n, hn, rfl⟩, rfl, hv⟩
  exact ⟨fun v hv => exec_encode policy hl (hops v hv), exec_unsupportedLayout hl ht hn rfl,
    step_of_commandWord rfl (by decide) rfl⟩

/-- Settles O8: the direction of MKR is DIR_READ, and its size is resolved before the range check. -/
theorem mkrPacksRead : Obligations.MkrPacksRead := by
  intro l policy s t n hl ht hn
  have hops (v : Nat) (hv : s.SizeIs l v) : s.EncodeOperands (.mkr l policy) s.build.dirRead t.toNat n.toNat v :=
    ⟨⟨t, ht, rfl⟩, ⟨n, hn, rfl⟩, rfl, hv⟩
  exact ⟨fun v hv => exec_encode policy hl (hops v hv), exec_unsupportedLayout hl ht hn rfl,
    step_of_commandWord rfl (by decide) rfl⟩

/-- Settles O9: the direction of MKRW is the OR of two codes, which is in range in a legal build. -/
theorem mkrwPacksReadOrWrite : Obligations.MkrwPacksReadOrWrite := by
  intro l policy s t n hl ht hn
  have hops (v : Nat) (hv : s.SizeIs l v) :
      s.EncodeOperands (.mkrw l policy) (s.build.dirRead ||| s.build.dirWrite) t.toNat n.toNat v :=
    ⟨⟨t, ht, rfl⟩, ⟨n, hn, rfl⟩, rfl, hv⟩
  exact ⟨fun v hv => exec_encode policy hl (hops v hv), exec_unsupportedLayout hl ht hn rfl,
    step_of_commandWord rfl (by decide) rfl⟩

/-- Settles O10: the direction of ENC is `dir_i`, which counts in the mask as the other operands do. -/
theorem encPacksItsDirection : Obligations.EncPacksItsDirection := by
  intro l policy s d t n hl hd ht hn
  have hops (v : Nat) (hv : s.SizeIs l v) : s.EncodeOperands (.enc l policy) d.toNat t.toNat n.toNat v :=
    ⟨⟨t, ht, rfl⟩, ⟨n, hn, rfl⟩, ⟨d, hd, rfl⟩, hv⟩
  have hrespond : respondInstr s.build s.inp (.enc l policy) =
      withSized s.build l s.inp (fun t n sz => finishSized s.build policy d.toNat t n sz true) := by
    simp only [respondInstr, respondEnc, hd]
  exact ⟨fun v hv => exec_encode policy hl (hops v hv), exec_unsupportedLayout hl ht hn hrespond,
    step_of_commandWord rfl (by decide) rfl⟩

/-- Settles O11: in range, both policies end in one success; out of range, the strict one ends in an error. -/
theorem strictAgreesWithWrap : Obligations.StrictAgreesWithWrap := by
  refine ⟨fun i s d t n v hl hops => ⟨⟨?_, fun hr => ?_⟩, fun hr => ?_⟩, fun l s => rfl⟩
  · rintro ⟨u, hu, hok⟩
    by_contra hr
    rw [exec_encode_invalidFieldRange hl hops hr] at hu
    obtain rfl := Host.Outcome.next.inj hu
    exact absurd hok (by simp [errorOut])
  · exact ⟨_, exec_encode_success hl hops (.inr hr), rfl⟩
  · rw [exec_encode_success hl hops (.inr hr), exec_encode_success hl hops (.inl rfl)]

/-! ## Codes that differ in one field -/

/-- The code of an encode that succeeded is the packed operands. -/
theorem codeO_of_encode_ok {s u : State} {i : Instr} {d t n v : Nat} (hl : s.build.legal = true)
    (h : s.EncodeOperands i d t n v) (hu : exec i s = .next u) (hok : u.out.okO = 1#1) :
    u.out.codeO.toNat = pack s.build d t n v := by
  obtain ⟨policy, hpolicy⟩ := exists_underPolicy i
  obtain ⟨hsuccess, herror⟩ := exec_encode policy hl h
  rw [hpolicy, hu] at hsuccess herror
  by_cases hr : policy = .wrap ∨ InRange s.build d t n v
  · obtain rfl := Host.Outcome.next.inj (hsuccess hr)
    rw [pack_eq_codeSum]
    exact encodeSuccess_codeO_toNat hl _ d t n v
  · obtain ⟨hwrap, hout⟩ := not_or.mp hr
    have hstrict : policy = .strict := by
      cases policy with
      | wrap => exact absurd rfl hwrap
      | strict => rfl
    obtain rfl := Host.Outcome.next.inj (herror hstrict hout)
    exact absurd hok (by simp [errorOut])

/-- A placed field has no bit outside its in-place mask (30_encoding.md R61). -/
theorem placeField_testBit_outside {p : Params} {f : Field} {j : Nat} (h : (p.inPlaceMask f).testBit j = false)
    (x : Nat) : (placeField p f x).testBit j = false := by
  have houtside : ¬ (p.shift f ≤ j ∧ j < p.shift f + p.bits f) := by
    rw [← inPlaceMask_testBit, h]
    exact Bool.false_ne_true
  rw [placeField, Nat.testBit_shiftLeft, Nat.testBit_mod_two_pow, Bool.eq_false_iff, ne_eq, Bool.and_eq_true,
    Bool.and_eq_true, decide_eq_true_eq, decide_eq_true_eq]
  omega

/-- Outside the mask of a field, a code does not depend on that field's operand (40_encode.md R110). -/
theorem pack_testBit_outside {p : Params} {f : Field} {d t n v d' t' n' v' j : Nat} (hd : f ≠ .dir → d' = d)
    (ht : f ≠ .typ → t' = t) (hn : f ≠ .nr → n' = n) (hv : f ≠ .size → v' = v)
    (h : (p.inPlaceMask f).testBit j = false) : (pack p d t n v).testBit j = (pack p d' t' n' v').testBit j := by
  have hf := placeField_testBit_outside h
  simp only [pack, Nat.testBit_or]
  cases f with
  | dir => rw [ht nofun, hn nofun, hv nofun, hf d, hf d']
  | typ => rw [hd nofun, hn nofun, hv nofun, hf t, hf t']
  | nr => rw [hd nofun, ht nofun, hv nofun, hf n, hf n']
  | size => rw [hd nofun, ht nofun, hn nofun, hf v, hf v']

/-- Settles O12: a bit that is not in the field's mask is the same in both codes. -/
theorem fieldsAreIndependent : Obligations.FieldsAreIndependent := by
  intro s s' a b i i' d t n v d' t' n' v' f hl hbuild hops hops' hd ht hn hv ha haok hb hbok
  rw [codeO_of_encode_ok hl hops ha haok, codeO_of_encode_ok (hbuild ▸ hl) hops' hb hbok, hbuild]
  refine Nat.eq_of_testBit_eq fun j => ?_
  rw [Nat.testBit_or, Nat.testBit_xor]
  cases hj : (s.build.inPlaceMask f).testBit j with
  | true => exact Bool.or_true _
  | false => rw [pack_testBit_outside hd ht hn hv hj, Bool.xor_self, Bool.or_false]

/-! ## The direction field of a code -/

/-- With the source's widths, masking and shifting as 40_encode.md R111 writes it shows the Direction field. -/
theorem directionBits_toNat (c : Code) :
    ((c &&& 0xC0000000#32) >>> 30).toNat = fieldOf Params.default .dir c.toNat := by
  rw [BitVec.toNat_ushiftRight, BitVec.toNat_and, Nat.shiftRight_and_distrib, fieldOf, ← Nat.shiftRight_eq_div_pow]
  exact Nat.and_two_pow_sub_one_eq_mod (c.toNat >>> 30) 2

/-- An encode that succeeds with the source's build shows its direction in the Direction field (40_encode.md R111). -/
theorem exec_encode_direction {s : State} {i : Instr} {policy : RangePolicy} {d t n v : Nat}
    (hbuild : s.build = Params.default) (h : s.EncodeOperands i d t n v) (hd : d < 4)
    (hr : policy = .wrap ∨ (t < 256 ∧ n < 256)) (hv : policy = .wrap ∨ v < 16384) :
    ∃ u, exec (underPolicy policy i) s = .next u ∧ u.out.okO = 1#1 ∧
      (u.out.codeO &&& 0xC0000000#32) >>> 30 = BitVec.ofNat 32 d := by
  have hl : s.build.legal = true := hbuild ▸ default_legal
  have hrange : policy = .wrap ∨ InRange s.build d t n v := by
    rw [hbuild]
    rcases hr with hwrap | ⟨ht, hn⟩
    · exact .inl hwrap
    · exact hv.imp_right fun hv => ⟨hd, ht, hn, hv⟩
  refine ⟨_, exec_encode_success hl h hrange, rfl, BitVec.eq_of_toNat_eq ?_⟩
  rw [directionBits_toNat, encodeSuccess_codeO_toNat hl, hbuild, fieldOf_dir_codeSum, BitVec.toNat_ofNat]
  exact (Nat.mod_eq_of_lt hd).trans (Nat.mod_eq_of_lt (by omega)).symm

/-- Settles O13: the direction operand of each constructor is its code in the source's build. -/
theorem directionFieldOfConstructors : Obligations.DirectionFieldOfConstructors := by
  intro l policy s t n hbuild ht hn hr
  have hnone : 0 = s.build.dirNone := hbuild ▸ rfl
  have hwrite : 1 = s.build.dirWrite := hbuild ▸ rfl
  have hread : 2 = s.build.dirRead := hbuild ▸ rfl
  have hrw : 3 = s.build.dirRw := hbuild ▸ rfl
  have htyp : ∃ x, s.inp.typeI = some x ∧ t.toNat = x.toNat := ⟨t, ht, rfl⟩
  have hnr : ∃ x, s.inp.nrI = some x ∧ n.toNat = x.toNat := ⟨n, hn, rfl⟩
  refine ⟨?_, fun v hv hsize => ⟨?_, ?_, ?_⟩⟩
  · exact exec_encode_direction (i := .mkn l policy) hbuild ⟨htyp, hnr, hnone, rfl⟩ (by decide) hr (.inr (by decide))
  · exact exec_encode_direction (i := .mkw l policy) hbuild ⟨htyp, hnr, hwrite, hv⟩ (by decide) hr hsize
  · exact exec_encode_direction (i := .mkr l policy) hbuild ⟨htyp, hnr, hread, hv⟩ (by decide) hr hsize
  · exact exec_encode_direction (i := .mkrw l policy) hbuild ⟨htyp, hnr, hrw, hv⟩ (by decide) hr hsize

/-- Packing an OR of two directions is OR-ing their codes: the other fields are OR-ed with themselves. -/
theorem pack_or_dir (p : Params) (a b t n v : Nat) : pack p (a ||| b) t n v = pack p a t n v ||| pack p b t n v := by
  have hdir : placeField p .dir (a ||| b) = placeField p .dir a ||| placeField p .dir b := by
    rw [placeField, Nat.or_mod_two_pow, Nat.shiftLeft_or_distrib]
    rfl
  refine Nat.eq_of_testBit_eq fun j => ?_
  simp only [pack, hdir, Nat.testBit_or]
  ac_rfl

/-- Settles O14: DIR_RW is DIR_READ | DIR_WRITE, and packing keeps the OR. -/
theorem mkrwIsMkrOrMkw : Obligations.MkrwIsMkrOrMkw := by
  intro l s t n v hl ht hn hv
  have htyp : ∃ x, s.inp.typeI = some x ∧ t.toNat = x.toNat := ⟨t, ht, rfl⟩
  have hnr : ∃ x, s.inp.nrI = some x ∧ n.toNat = x.toNat := ⟨n, hn, rfl⟩
  refine ⟨_, _, _, exec_encode_success (i := .mkrw l .wrap) hl ⟨htyp, hnr, rfl, hv⟩ (.inl rfl),
    exec_encode_success (i := .mkr l .wrap) hl ⟨htyp, hnr, rfl, hv⟩ (.inl rfl),
    exec_encode_success (i := .mkw l .wrap) hl ⟨htyp, hnr, rfl, hv⟩ (.inl rfl), ?_⟩
  simp only [encodeSuccess, ← BitVec.ofNat_or, ← pack_eq_codeSum, ← pack_or_dir, Params.dirRw]

/-- Settles O15: MKN and that ENC have the same operands, and so the same success. -/
theorem mknIsEncOfNone : Obligations.MknIsEncOfNone := by
  intro l s d t n hl hd hnone ht hn hz
  have htyp : ∃ x, s.inp.typeI = some x ∧ t.toNat = x.toNat := ⟨t, ht, rfl⟩
  have hnr : ∃ x, s.inp.nrI = some x ∧ n.toNat = x.toNat := ⟨n, hn, rfl⟩
  have hmkn : s.EncodeOperands (.mkn l .wrap) d.toNat t.toNat n.toNat 0 := ⟨htyp, hnr, hnone, rfl⟩
  have henc : s.EncodeOperands (.enc .literal .wrap) d.toNat t.toNat n.toNat 0 :=
    ⟨htyp, hnr, ⟨d, hd, rfl⟩, 0, hz, rfl⟩
  exact ⟨_, _, exec_encode_success hl hmkn (.inl rfl), exec_encode_success hl henc (.inl rfl), rfl⟩

end Sys2Proof.Machine
end


section
/-! PROOFS. 41_layout_size.md: the length of a layout (R133, R134), LSIZE (R135), and a layout that is too long for the
Size field of a CommandCode (R136). -/

namespace Sys2Proof.Machine

/-! ## The length of a layout -/

/-- An entry has at most 8191 bytes: its width has 16 bits (30_encoding.md R73, 41_layout_size.md R133). -/
theorem layoutLength_le (es : List LayoutEntry) : layoutLength es ≤ es.length * 8191 := by
  have hsum : layoutLength es ≤ (es.map (fun e => e.toNat / 16 / 8)).length • 8191 := by
    refine List.sum_le_card_nsmul _ _ fun x hx => ?_
    obtain ⟨e, -, rfl⟩ := List.mem_map.mp hx
    have := e.isLt
    omega
  rwa [List.length_map, smul_eq_mul] at hsum

/-- The widths alone make the length (41_layout_size.md R134). -/
theorem layoutLength_eq_of_widths {es es' : List LayoutEntry}
    (h : es.map (fun e => e.toNat / 16) = es'.map (fun e => e.toNat / 16)) : layoutLength es = layoutLength es' := by
  have hwidths (xs : List LayoutEntry) : layoutLength xs = ((xs.map (fun e => e.toNat / 16)).map (· / 8)).sum := by
    rw [List.map_map]
    rfl
  rw [hwidths, hwidths, h]

/-! ## LSIZE -/

/-- LSIZE of a driven, valid layout (41_layout_size.md R135). -/
theorem exec_lsize_of_layoutIs {s : State} {es : List LayoutEntry} (l : SizeSource) (policy : RangePolicy)
    (hl : s.build.legal = true) (h : s.LayoutIs es) (hlen : es.length ≤ s.build.lmax) (hok : ∀ e ∈ es, EntryOk e) :
    exec (.lsize l policy) s =
      .next (s.showResponse { OutPorts.success with lsizeO := BitVec.ofNat 32 (layoutLength es) }) := by
  rw [exec_eq_answer, respondInstr, respondLsize_of_layoutIs l policy h hlen hok, answer_some _ hl]

/-- LSIZE of a driven, invalid layout (41_layout_size.md R132, R135). -/
theorem exec_lsize_of_layoutInvalid {s : State} (l : SizeSource) (policy : RangePolicy) (hl : s.build.legal = true)
    (h : s.LayoutInvalid) : exec (.lsize l policy) s = .next (s.showResponse (errorOut 2#3 0#4)) := by
  have hrespond : respondInstr s.build s.inp (.lsize l policy) = some (raiseError .unsupportedLayout) := by
    simp only [respondInstr, respondLsize, readLayout_of_invalid s h]
  rw [exec_eq_answer, hrespond, answer_some _ hl]
  rfl

/-- Settles O22: `lay_n` counts at most 255 entries, and each adds at most 8191 bytes. -/
theorem lsizeGivesTheLength : Obligations.LsizeGivesTheLength := by
  intro l policy s hl
  refine ⟨fun es hes hlen hok => ?_, exec_lsize_of_layoutInvalid l policy hl, step_of_commandWord rfl (by decide) rfl⟩
  have hexec := exec_lsize_of_layoutIs l policy hl hes hlen hok
  obtain ⟨-, hcount, -⟩ := hes
  have hle := layoutLength_le es
  exact ⟨by omega, fun h16 => by omega, hexec⟩

/-- Settles O23: LSIZE shows the length, which the widths alone make. -/
theorem kindAndOrderDoNotCount : Obligations.KindAndOrderDoNotCount := by
  intro l policy s s' es es' hl hbuild hes hes' hlen hok hok' hwidths
  have hcount : es.length = es'.length := by simpa using congrArg List.length hwidths
  have hl' : s'.build.legal = true := hbuild ▸ hl
  have hlen' : es'.length ≤ s'.build.lmax := by rwa [hbuild, ← hcount]
  refine ⟨_, _, exec_lsize_of_layoutIs l policy hl hes hlen hok, exec_lsize_of_layoutIs l policy hl' hes' hlen' hok',
    rfl, ?_⟩
  rw [showResponse_out, showResponse_out, layoutLength_eq_of_widths hwidths]

/-! ## A layout that is too long for the Size field -/

/-- Bit 2 of the out-of-range mask is the size's (40_encode.md R101). -/
theorem maskSum_getLsbD_size (p : Params) (d t n v : Nat) :
    (BitVec.ofNat 4 (maskSum p d t n v)).getLsbD 2 = outOfRange p .size v := by
  rw [← rangeMask_checked, rangeMask, BitVec.getLsbD_append, BitVec.getLsbD_append, BitVec.getLsbD_append]
  simp

/-- What an encode of a size over 16383 bytes shows with the source's build, under each policy (41_layout_size.md
R136). -/
theorem exec_encode_longSize {s : State} {i : Instr} {d t n v : Nat} (hbuild : s.build = Params.default)
    (h : s.EncodeOperands i d t n v) (hv : 16383 < v) :
    (∃ u, exec (underPolicy .wrap i) s = .next u ∧ u.out.okO = 1#1 ∧
      u.out.codeO.toNat / 2 ^ 16 % 2 ^ 14 = v % 2 ^ 14) ∧
    (∃ u, exec (underPolicy .strict i) s = .next u ∧ u.out.okO = 0#1 ∧ u.out.errO = 1#3 ∧
      u.out.rngO.getLsbD 2 = true) := by
  have hl : s.build.legal = true := hbuild ▸ default_legal
  have hbits : s.build.sizeBits = 14 := hbuild ▸ rfl
  have hlong : 2 ^ s.build.sizeBits ≤ v := by rw [hbits]; omega
  have hout : ¬ InRange s.build d t n v := fun ⟨_, _, _, hfits⟩ => absurd hfits (Nat.not_lt.mpr hlong)
  refine ⟨⟨_, exec_encode_success hl h (.inl rfl), rfl, ?_⟩, ⟨_, exec_encode_invalidFieldRange hl h hout, rfl, rfl, ?_⟩⟩
  · rw [encodeSuccess_codeO_toNat hl, hbuild]
    exact fieldOf_size_codeSum Params.default d t n v
  · exact (maskSum_getLsbD_size s.build d t n v).trans (decide_eq_true hlong)

/-- Settles O24: the layout's length is the size operand of each of the four operations. -/
theorem longLayoutWrapsOrFails : Obligations.LongLayoutWrapsOrFails := by
  intro s d t n b hbuild hd ht hn hsize hb op hop
  have htyp : ∃ x, s.inp.typeI = some x ∧ t.toNat = x.toNat := ⟨t, ht, rfl⟩
  have hnr : ∃ x, s.inp.nrI = some x ∧ n.toNat = x.toNat := ⟨n, hn, rfl⟩
  simp only [List.mem_cons, List.not_mem_nil, or_false] at hop
  obtain rfl | rfl | rfl | rfl := hop
  · exact exec_encode_longSize (i := .mkw .layout .wrap) hbuild ⟨htyp, hnr, rfl, hsize⟩ hb
  · exact exec_encode_longSize (i := .mkr .layout .wrap) hbuild ⟨htyp, hnr, rfl, hsize⟩ hb
  · exact exec_encode_longSize (i := .mkrw .layout .wrap) hbuild ⟨htyp, hnr, rfl, hsize⟩ hb
  · exact exec_encode_longSize (i := .enc .layout .wrap) hbuild ⟨htyp, hnr, ⟨d, hd, rfl⟩, hsize⟩ hb

end Sys2Proof.Machine
end

section
/-! PROOFS. 42_decode.md: DEC whole (R150), and what it undoes: fields to fields (R151), and code to code (R152). -/

namespace Sys2Proof.Machine

/-! ## The fields of a code -/

theorem fieldOf_lt (p : Params) (f : Field) (c : Nat) : fieldOf p f c < 2 ^ p.bits f := Nat.mod_lt _ (by positivity)

/-- The fields of any number are in range (40_encode.md R101). -/
theorem inRange_fieldOf (p : Params) (c : Nat) :
    InRange p (fieldOf p .dir c) (fieldOf p .typ c) (fieldOf p .nr c) (fieldOf p .size c) :=
  ⟨fieldOf_lt p .dir c, fieldOf_lt p .typ c, fieldOf_lt p .nr c, fieldOf_lt p .size c⟩

theorem bits_le {p : Params} (h : p.legal = true) (f : Field) : p.bits f ≤ 32 := by
  obtain ⟨-, -, -, -, hsum, -⟩ := legal_widths h
  cases f <;> simp only [Params.bits] <;> omega

/-- No bit of a field is lost on the 32 wires of its output port. -/
theorem ofNat_fieldOf_toNat {p : Params} (h : p.legal = true) (f : Field) (c : Nat) :
    (BitVec.ofNat 32 (fieldOf p f c)).toNat = fieldOf p f c :=
  Nat.mod_eq_of_lt ((fieldOf_lt p f c).trans_le (Nat.pow_le_pow_right (by decide) (bits_le h f)))

/-- The fields of a 32-bit number, put together again, are the number: each field is the digit that dividing by the
places below it leaves, and the Direction, on top, is all that is left (42_decode.md R152). -/
theorem codeSum_fieldOf {p : Params} (h : p.legal = true) {c : Nat} (hc : c < 2 ^ 32) :
    codeSum p (fieldOf p .dir c) (fieldOf p .typ c) (fieldOf p .nr c) (fieldOf p .size c) = c := by
  obtain ⟨-, -, -, -, hsum, -⟩ := legal_widths h
  have hdir : c / 2 ^ p.nrBits / 2 ^ p.typeBits / 2 ^ p.sizeBits < 2 ^ p.dirBits := by
    rw [Nat.div_div_eq_div_mul, Nat.div_div_eq_div_mul, ← pow_add, ← pow_add]
    exact Nat.div_lt_of_lt_mul (by rwa [← pow_add, ← Nat.add_assoc, hsum])
  simp only [codeSum_eq_digits, fieldOf, Params.shift, Params.bits, pow_zero, Nat.div_one, pow_add,
    ← Nat.div_div_eq_div_mul, Nat.mod_mod, Nat.mod_eq_of_lt hdir, Nat.div_add_mod']

/-- Two codes whose fields are equal are equal. -/
theorem code_eq_of_fieldOf {p : Params} (h : p.legal = true) {c c' : Code}
    (hf : ∀ f, fieldOf p f c.toNat = fieldOf p f c'.toNat) : c = c' := by
  apply BitVec.eq_of_toNat_eq
  rw [← codeSum_fieldOf h c.isLt, hf, hf, hf, hf, codeSum_fieldOf h c'.isLt]

/-! ## The response of DEC -/

/-- The response of DEC to a code: success, and its four fields (42_decode.md R150). -/
def decResponse (p : Params) (c : Code) : OutPorts :=
  { OutPorts.success with
    dirO := BitVec.ofNat 32 (fieldOf p .dir c.toNat)
    sizeO := BitVec.ofNat 32 (fieldOf p .size c.toNat)
    typeO := BitVec.ofNat 32 (fieldOf p .typ c.toNat)
    nrO := BitVec.ofNat 32 (fieldOf p .nr c.toNat) }

theorem exec_dec_eq_decResponse {s : State} {c : Code} (l : SizeSource) (policy : RangePolicy)
    (hl : s.build.legal = true) (hc : s.inp.codeI = some c) :
    exec (.dec l policy) s = .next (s.showResponse (decResponse s.build c)) := exec_dec l policy hl hc

/-- The four outputs of DEC as numbers. -/
theorem decResponse_toNat {p : Params} (h : p.legal = true) (c : Code) :
    (decResponse p c).dirO.toNat = fieldOf p .dir c.toNat ∧ (decResponse p c).sizeO.toNat = fieldOf p .size c.toNat ∧
      (decResponse p c).typeO.toNat = fieldOf p .typ c.toNat ∧ (decResponse p c).nrO.toNat = fieldOf p .nr c.toNat :=
  ⟨ofNat_fieldOf_toNat h .dir _, ofNat_fieldOf_toNat h .size _, ofNat_fieldOf_toNat h .typ _,
    ofNat_fieldOf_toNat h .nr _⟩

/-- DEC of a packed code shows each operand reduced to its field (42_decode.md R151). -/
theorem decResponse_of_codeSum {p : Params} (h : p.legal = true) {c : Code} {d t n v : Nat}
    (hc : c.toNat = codeSum p d t n v) :
    (decResponse p c).dirO.toNat = d % 2 ^ p.dirBits ∧ (decResponse p c).sizeO.toNat = v % 2 ^ p.sizeBits ∧
      (decResponse p c).typeO.toNat = t % 2 ^ p.typeBits ∧ (decResponse p c).nrO.toNat = n % 2 ^ p.nrBits := by
  obtain ⟨hd, hz, ht, hn⟩ := decResponse_toNat h c
  rw [hd, hz, ht, hn, hc, fieldOf_dir_codeSum, fieldOf_size_codeSum, fieldOf_typ_codeSum, fieldOf_nr_codeSum]
  exact ⟨rfl, rfl, rfl, rfl⟩

/-- DEC tells any two codes apart (42_decode.md R152). -/
theorem decResponse_injective {p : Params} (h : p.legal = true) : Function.Injective (decResponse p) := by
  intro c c' heq
  obtain ⟨hd, hz, ht, hn⟩ := decResponse_toNat h c
  obtain ⟨hd', hz', ht', hn'⟩ := decResponse_toNat h c'
  refine code_eq_of_fieldOf h fun f => ?_
  cases f with
  | nr => rw [← hn, ← hn', heq]
  | typ => rw [← ht, ← ht', heq]
  | size => rw [← hz, ← hz', heq]
  | dir => rw [← hd, ← hd', heq]

/-- DEC shows every in-range tuple for some code, the one that packs it (42_decode.md R152). -/
theorem exists_decResponse {p : Params} (h : p.legal = true) {d t n v : Nat} (hr : InRange p d t n v) :
    ∃ c, (decResponse p c).dirO.toNat = d ∧ (decResponse p c).sizeO.toNat = v ∧ (decResponse p c).typeO.toNat = t ∧
      (decResponse p c).nrO.toNat = n := by
  obtain ⟨hd, ht, hn, hv⟩ := hr
  have hfields := decResponse_of_codeSum h (encodeSuccess_codeO_toNat h 0#4 d t n v)
  rw [Nat.mod_eq_of_lt hd, Nat.mod_eq_of_lt hv, Nat.mod_eq_of_lt ht, Nat.mod_eq_of_lt hn] at hfields
  exact ⟨_, hfields⟩

/-- ENC, wrapping or strict, of the fields that DEC shows gives the code back, with nothing out of range (42_decode.md
R152). -/
theorem exec_enc_decResponse {s : State} {c : Code} (policy : RangePolicy) (hl : s.build.legal = true)
    (hd : s.inp.dirI = some (decResponse s.build c).dirO) (ht : s.inp.typeI = some (decResponse s.build c).typeO)
    (hn : s.inp.nrI = some (decResponse s.build c).nrO) (hz : s.inp.sizeI = some (decResponse s.build c).sizeO) :
    exec (.enc .literal policy) s = .next (s.showResponse (encodeSuccess 0#4 c.toNat)) := by
  obtain ⟨hd', hz', ht', hn'⟩ := decResponse_toNat hl c
  have hops : s.EncodeOperands (.enc .literal policy) (fieldOf s.build .dir c.toNat) (fieldOf s.build .typ c.toNat)
      (fieldOf s.build .nr c.toNat) (fieldOf s.build .size c.toNat) :=
    ⟨⟨_, ht, ht'.symm⟩, ⟨_, hn, hn'.symm⟩, ⟨_, hd, hd'.symm⟩, ⟨_, hz, hz'.symm⟩⟩
  have hr := inRange_fieldOf s.build c.toNat
  rw [exec_enc_success hl hops (.inr hr), (maskSum_eq_zero_iff ..).mpr hr, codeSum_fieldOf hl c.isLt]

/-! ## The obligations -/

/-- Settles O19: DEC reads `code_i` alone, and its word is that of OP 5. -/
theorem decSplitsEveryCode : Obligations.DecSplitsEveryCode :=
  fun l policy _ _ hl hc => ⟨exec_dec l policy hl hc, step_of_commandWord rfl (by decide) rfl⟩

/-- Settles O20: the code of ENC is the sum of the reduced operands, which DEC divides again. -/
theorem decOfEncGivesTheFields : Obligations.DecOfEncGivesTheFields := by
  intro l l' policy s d t n v hl hd ht hn hv
  have hops : s.EncodeOperands (.enc l .wrap) d.toNat t.toNat n.toNat v :=
    ⟨⟨t, ht, rfl⟩, ⟨n, hn, rfl⟩, ⟨d, hd, rfl⟩, hv⟩
  exact ⟨_, _, exec_enc_success hl hops (.inl rfl), exec_dec_eq_decResponse l' policy hl rfl, rfl,
    decResponse_of_codeSum hl (encodeSuccess_codeO_toNat hl _ ..)⟩

/-- Settles O21: the fields of a code put together are the code, so DEC loses nothing; and packing an in-range tuple
gives the code whose fields it is. -/
theorem encOfDecGivesTheCode : Obligations.EncOfDecGivesTheCode := by
  intro l policy policy' s c hl hc
  have hdec := exec_dec_eq_decResponse l policy hl hc
  have hdec' (c' : Code) := exec_dec_eq_decResponse (s := s.present { s.inp with codeI := some c' }) l policy hl rfl
  refine ⟨⟨_, _, hdec, exec_enc_decResponse policy' hl rfl rfl rfl rfl, rfl, ?_⟩,
    fun c' => ⟨_, _, hdec, hdec' c', fun heq => decResponse_injective hl heq⟩, fun d t n v hr => ?_⟩
  · exact (BitVec.ofNat_toNat 32 c).trans (BitVec.setWidth_eq c)
  · obtain ⟨c', hfields⟩ := exists_decResponse hl hr
    exact ⟨c', _, hdec' c', hfields⟩

end Sys2Proof.Machine
end

section
/-! PROOFS. 43_constants.md: what CONST shows (R160), and the entries of the ROM, in every legal build (R161, R165) and
in the source's. -/

namespace Sys2Proof.Machine

/-! ## The entries of the ROM -/

/-- The entries of a build's ROM as numbers, in the order of 43_constants.md R161: each CommandCode as the sum of its
placed fields. -/
def romEntries (p : Params) : List Nat :=
  [0x6B, codeSum p p.dirRead 0x6B 1 1, codeSum p p.dirWrite 0x6B 1 1, codeSum p p.dirRead 0x6B 2 1,
    codeSum p p.dirWrite 0x6B 2 1, codeSum p p.dirRead 0x6B 3 1, codeSum p p.dirWrite 0x6B 3 1,
    codeSum p p.dirRead 0x6B 4 4, codeSum p p.dirWrite 0x6B 4 4, 0x01, 0x02, 0, 0x01, 0x02, 0x03]

theorem romRead_eq_codeSum (p : Params) (n sz : Nat) : romRead p n sz = codeSum p p.dirRead 0x6B n sz :=
  pack_eq_codeSum p p.dirRead 0x6B n sz

theorem romWrite_eq_codeSum (p : Params) (n sz : Nat) : romWrite p n sz = codeSum p p.dirWrite 0x6B n sz :=
  pack_eq_codeSum p p.dirWrite 0x6B n sz

/-- The model's constants are those entries: it packs each CommandCode when it is read (43_constants.md R161). -/
theorem map_constValue_romNames (p : Params) : romNames.map (constValue p) = romEntries p := by
  simp only [romNames, List.map_cons, List.map_nil, constValue, romRead_eq_codeSum, romWrite_eq_codeSum]
  rfl

/-- The entries with the source's build: the table of 43_constants.md R161. -/
theorem romEntries_default :
    (romEntries Params.default).map (BitVec.ofNat 32) =
      [0x0000006B#32, 0x80016B01#32, 0x40016B01#32, 0x80016B02#32, 0x40016B02#32, 0x80016B03#32, 0x40016B03#32,
        0x80046B04#32, 0x40046B04#32, 0x00000001#32, 0x00000002#32, 0x00000000#32, 0x00000001#32, 0x00000002#32,
        0x00000003#32] := by decide

/-! ## CONST -/

/-- CONST of an index that names an entry shows the entry, whatever `L` and `S` are (43_constants.md R160). -/
theorem exec_const_entry {s : State} {i : Operand} {value : Nat} (l : SizeSource) (policy : RangePolicy)
    (hl : s.build.legal = true) (hi : s.inp.idxI = some i) (h : (romEntries s.build)[i.toNat]? = some value) :
    exec (.const l policy) s = .next (s.showResponse (encodeSuccess 0#4 value)) := by
  rw [← map_constValue_romNames, List.getElem?_map, Option.map_eq_some_iff] at h
  obtain ⟨name, hname, rfl⟩ := h
  have hrespond : respondInstr s.build s.inp (.const l policy) =
      some (encodeSuccess 0#4 (constValue s.build name)) := by
    simp only [respondInstr, respondConst, hi, hname]
    rfl
  rw [exec_eq_answer, hrespond, answer_some _ hl]

/-! ## The obligations -/

/-- Settles O25: the ROM has 15 entries, so an index names one or is `BadConstIndex`; and the word of CONST is that of
OP 7. -/
theorem constReadsTheRom : Obligations.ConstReadsTheRom :=
  fun l policy _ _ hl hi => ⟨fun _ h => exec_const_entry l policy hl hi h, exec_const_bad_index l policy hl hi,
    step_of_commandWord rfl (by decide) rfl⟩

/-- Settles O26: the table's value is the entry of the source's build on the 32 wires of `code_o`. -/
theorem defaultConstantTable : Obligations.DefaultConstantTable := by
  intro l policy s i value hbuild hi htable
  rw [← romEntries_default, List.getElem?_map, Option.map_eq_some_iff] at htable
  obtain ⟨entry, hentry, rfl⟩ := htable
  exact ⟨_, exec_const_entry l policy (hbuild ▸ default_legal) hi (hbuild ▸ hentry), rfl, rfl, rfl⟩

end Sys2Proof.Machine
end

section
/-! PROOFS. 60_exceptions.md: the response to a driven request (R180, R185), the same response to the same request
(R188), the reserved operations (R183), and that nothing stops the block (R187, R190). -/

namespace Sys2Proof.Machine

/-! ## A driven request -/

/-- The step of a driven request shows the response of its operation: no output is drawn freely. -/
theorem step_of_driven {s : State} {i : Instr} (hl : s.build.legal = true) (hp : s.presented = some i)
    (hd : s.Driven i) : ∃ o, respondInstr s.build s.inp i = some o ∧ step s = .next (s.showResponse o) := by
  obtain ⟨o, ho⟩ := respondInstr_of_driven ((driven_iff s i).mp hd)
  exact ⟨o, ho, step_of_response hl hp ho⟩

/-- Settles O28: every response of an operation is lawful. -/
theorem drivenRequestGetsLawfulResponse : Obligations.DrivenRequestGetsLawfulResponse := by
  intro s i hl hp hd
  obtain ⟨o, ho, hstep⟩ := step_of_driven hl hp hd
  exact ⟨o, respondInstr_lawful ho, hstep⟩

/-- A response is computed from the build and the input ports (10_state.md R26), so a state that shows it already is
stepped to itself. -/
theorem step_showResponse {s : State} {i : Instr} {o : OutPorts} (hl : s.build.legal = true)
    (hp : s.presented = some i) (h : respondInstr s.build s.inp i = some o) :
    step (s.showResponse o) = .next (s.showResponse o) := by
  have hp' : (s.showResponse o).presented = some i := (presented_congr rfl).trans hp
  exact step_of_response hl hp' h

/-- Settles O36: the state that shows the response is stepped to itself. -/
theorem repeatedRequestRepeatsResponse : Obligations.RepeatedRequestRepeatsResponse := by
  intro s i hl hp hd
  obtain ⟨o, ho, hstep⟩ := step_of_driven hl hp hd
  exact ⟨s.showResponse o, hstep, step_showResponse hl hp ho⟩

/-! ## Nothing stops -/

theorem not_stops_next (t : State) : ¬ stops (.next t) := id

/-- With a response the block shows it, and without one it draws its outputs: a legal build goes on either way. -/
theorem not_stops_answer {s : State} (r : Option OutPorts) (hl : s.build.legal = true) : ¬ stops (s.answer r) := by
  cases r with
  | none =>
    rw [answer_none hl]
    exact not_stops_next s.drawFree
  | some o =>
    rw [answer_some o hl]
    exact not_stops_next (s.showResponse o)

/-- Settles O30: steps and instructions are answers, which go on in a legal build; and no fault exists that any step
could end in (log 17). -/
theorem noStop : Obligations.NoStop := by
  intro s
  refine ⟨fun hl => ?_, fun hl i => ?_, nofun⟩
  · rw [step_eq_answer]
    exact not_stops_answer _ hl
  · rw [exec_eq_answer]
    exact not_stops_answer _ hl

/-! ## The reserved operations -/

/-- OP is the low four bits of the command word, as a number (30_encoding.md R66). -/
theorem decodeOp_toNat (w : CmdWord) : (decodeOp w).toNat = w.toNat % 16 := by
  rw [decodeOp, BitVec.extractLsb'_toNat, Nat.shiftRight_zero]

/-- A word with an OP of 8 or more is a reserved one (30_encoding.md R71). -/
theorem decode_reserved {w : CmdWord} (h : 8 ≤ w.toNat % 16) :
    decode w = .reserved (decodeL w) (decodeS w) (decodeOp w) := by
  rw [← decodeOp_toNat] at h
  unfold decode
  split
  case h_9 => rfl
  all_goals omega

/-- A reserved operation reads no operand, so it has its error whatever is driven (60_exceptions.md R186). -/
theorem exec_reserved {s : State} (l : SizeSource) (policy : RangePolicy) (op : BitVec 4)
    (hl : s.build.legal = true) :
    exec (.reserved l policy op) s = .next (s.showResponse (errorOut 3#3 0#4)) := by
  have hrespond : respondInstr s.build s.inp (.reserved l policy op) = some (raiseError .illegalOp) := rfl
  rw [exec_eq_answer, hrespond, answer_some _ hl, raiseError_eq]
  rfl

/-- Settles O27: the word of a reserved OP decodes to a reserved operation, and every one of those raises IllegalOp. -/
theorem reservedOpIsIllegal : Obligations.ReservedOpIsIllegal := by
  intro l policy op s hl
  refine ⟨exec_reserved l policy op hl, fun w hw h8 => ?_⟩
  calc step s = exec (decode w) s := (step_of_cmdI hw).2
    _ = exec (.reserved (decodeL w) (decodeS w) (decodeOp w)) s := by rw [decode_reserved h8]
    _ = .next { s with out := errorOut 3#3 0#4 } := exec_reserved _ _ _ hl

end Sys2Proof.Machine
end

section
/-! PROOFS. 70_reset_and_hazards.md: an undriven read port frees every output (R217). Read the other way round, it is
that an operation which responds found each port it reads driven: the converse of `respondInstr_of_driven`. -/

namespace Sys2Proof.Machine

/-! ## A response means driven ports -/

/-- A port that carries a value has a natural on it; `port_driven` is the converse. -/
theorem port_value_ne_none {w : Nat} {a : Port w} {x : BitVec w} (h : a = some x) : a.map BitVec.toNat ≠ none := by
  rw [h]
  exact Option.some_ne_none x.toNat

/-- Everything `readLayout` can do when it answers: the count is driven, and so are the entries below it. -/
theorem readLayout_eq_some {p : Params} {inp : InPorts} {sz : Except CodecError Nat} (h : readLayout p inp = some sz) :
    ∃ n es, inp.layN = some n ∧ readEntries (min n.toNat p.lmax) inp.layE = some es := by
  unfold readLayout at h
  split at h
  · cases h
  · next n hn =>
    split at h
    · cases h
    · next es hes => exact ⟨n, es, hn, hes⟩

theorem drivenOn_of_readLayout {p : Params} {inp : InPorts} {sz : Except CodecError Nat}
    (h : readLayout p inp = some sz) : inp.DrivenOn (readsLayout p inp) := by
  obtain ⟨n, es, hn, hes⟩ := readLayout_eq_some h
  intro q hq
  cases q with
  | layN => exact port_value_ne_none hn
  | layE j =>
    obtain ⟨m, hm, hjm, hjl⟩ := hq
    obtain rfl : n.toNat = m := by simpa [InPorts.valueAt, hn] using hm
    obtain ⟨hlen, hport⟩ := (readEntries_eq_some_iff _ _ _).mp hes
    have hj : j < es.length := by omega
    exact port_value_ne_none ((entryPort_eq_some_iff _ _ _).mp (hport j hj))
  | _ => exact hq.elim

theorem drivenOn_of_sizeOperand {p : Params} {l : SizeSource} {inp : InPorts} {sz : Except CodecError Nat}
    (h : sizeOperand p l inp = some sz) : inp.DrivenOn (readsSize p inp l) := by
  cases l with
  | literal =>
    simp only [sizeOperand] at h
    split at h
    · cases h
    · next z hz =>
      rintro q rfl
      exact port_value_ne_none hz
  | layout => exact drivenOn_of_readLayout h

theorem drivenOn_of_withSized {p : Params} {l : SizeSource} {inp : InPorts} {o : OutPorts}
    {f : Nat → Nat → Except CodecError Nat → OutPorts} (h : withSized p l inp f = some o) :
    inp.DrivenOn fun q => q = .typ ∨ q = .nr ∨ readsSize p inp l q := by
  obtain ⟨t, n, sz, ht, hn, hsz, -⟩ := withSized_eq_some h
  rintro q (rfl | rfl | hq)
  · exact port_value_ne_none ht
  · exact port_value_ne_none hn
  · exact drivenOn_of_sizeOperand hsz q hq

/-- An operation that responds found every port of its row in 30_encoding.md R76 driven. -/
theorem drivenOn_of_respondInstr {p : Params} {inp : InPorts} {i : Instr} {o : OutPorts}
    (hcmd : inp.valueAt .cmd ≠ none) (h : respondInstr p inp i = some o) : inp.DrivenOn (readsPort p inp i) := by
  rintro q (rfl | hq)
  · exact hcmd
  cases i with
  | mkn l policy =>
    simp only [respondInstr, respondMkn] at h
    split at h
    · next t n ht hn =>
      rcases hq with rfl | rfl
      · exact port_value_ne_none ht
      · exact port_value_ne_none hn
    · cases h
  | mkw l policy =>
    rw [respondInstr, respondMkw] at h
    exact drivenOn_of_withSized h q hq
  | mkr l policy =>
    rw [respondInstr, respondMkr] at h
    exact drivenOn_of_withSized h q hq
  | mkrw l policy =>
    rw [respondInstr, respondMkrw] at h
    exact drivenOn_of_withSized h q hq
  | enc l policy =>
    simp only [respondInstr, respondEnc] at h
    split at h
    · cases h
    · next d hd =>
      rcases hq with rfl | hq
      · exact port_value_ne_none hd
      · exact drivenOn_of_withSized h q hq
  | dec l policy =>
    simp only [respondInstr, respondDec] at h
    split at h
    · cases h
    · next c hc =>
      obtain rfl : q = .code := hq
      exact port_value_ne_none hc
  | lsize l policy =>
    cases hlay : readLayout p inp with
    | none => simp [respondInstr, respondLsize, hlay] at h
    | some sz => exact drivenOn_of_readLayout hlay q hq
  | const l policy =>
    simp only [respondInstr, respondConst] at h
    split at h
    · cases h
    · next idx hidx =>
      obtain rfl : q = .idx := hq
      exact port_value_ne_none hidx
  | reserved l policy op => exact hq.elim

/-! ## An undriven port means no response -/

/-- An instruction is presented on a driven `cmd_i` (10_state.md R27). -/
theorem cmd_driven_of_presented {s : State} {i : Instr} (hp : s.presented = some i) : s.inp.valueAt .cmd ≠ none := by
  unfold State.presented at hp
  split at hp
  · cases hp
  · next w hw => exact port_value_ne_none hw

/-- A presented instruction has no response exactly when a port it reads is undriven (70_reset_and_hazards.md R217). -/
theorem respondInstr_eq_none_iff {s : State} {i : Instr} (hp : s.presented = some i) :
    respondInstr s.build s.inp i = none ↔ ¬ s.Driven i := by
  constructor
  · intro hnone hd
    obtain ⟨o, ho⟩ := respondInstr_of_driven ((driven_iff s i).mp hd)
    exact Option.some_ne_none o (ho.symm.trans hnone)
  · intro hd
    by_contra hsome
    obtain ⟨o, ho⟩ := Option.ne_none_iff_exists'.mp hsome
    exact hd (drivenOn_of_respondInstr (cmd_driven_of_presented hp) ho)

/-- Settles O29: without an instruction, or without a response to it, the step answers nothing, and a legal build then
draws its outputs. -/
theorem undrivenReadDrawsFreely : Obligations.UndrivenReadDrawsFreely := by
  rintro s hl (hp | ⟨i, hp, hd⟩)
  · calc step s = s.answer none := by simp only [step, hp]
      _ = .next s.drawFree := answer_none hl
  · calc step s = exec i s := by simp only [step, hp]
      _ = s.answer none := by rw [exec_eq_answer, (respondInstr_eq_none_iff hp).mpr hd]
      _ = .next s.drawFree := answer_none hl

end Sys2Proof.Machine
end
